-- ==== Sys2Proof/Word.lean ====
section
/-! DEFINITION. The word types of PXC: the 32-bit word of the host bus and its bytes (20_memory.md R50 to R52). -/

namespace Sys2Proof

/-- One byte of a host's view of a word (R52). -/
abbrev Byte := BitVec 8

/-- The 32-bit word every access moves and every command is (R51, R70). -/
abbrev Word := BitVec 32

end Sys2Proof
end

