-- ==== Sys2Proof/Syntax.lean ====
section
/-! DEFINITION. The commands of PXC (30_encoding.md R76): one constructor per row of spec/opcode_table.json. -/

namespace Sys2Proof

/-- A command with its one operand field, if it has one (R71, R72). Fields are numbers; `Instr.wellFormed` states their
ranges. -/
inductive Instr where
  /-- NOP (44_control.md R150). -/
  | nop
  /-- PRED (40_predictor.md R90). -/
  | pred
  /-- CTX TIDX (41_context.md R100). -/
  | ctx (tidx : Nat)
  /-- SCOORD SIDX (42_slice_geometry.md R120). -/
  | scoord (sidx : Nat)
  /-- RLT CLASS (43_run_length.md R141). -/
  | rlt (cls : Nat)
deriving DecidableEq, Repr

/-- The mnemonic of a command, as spec/opcode_table.json spells it. -/
def Instr.mnemonic : Instr → String
  | .nop => "NOP"
  | .pred => "PRED"
  | .ctx _ => "CTX"
  | .scoord _ => "SCOORD"
  | .rlt _ => "RLT"

end Sys2Proof
end

