-- ==== Sys2Proof/Config.lean ====
section
/-! DEFINITION. The implementation parameters of 00_scope.md R6: each one is a field of `Config` with R6's default. `State`
carries the record and no step changes it. NUM_ARRAYS and RL_ENTRIES are constants: R6 calls them fixed by the source,
"Not a parameter". The free value of an unwritten table entry (93_implementation_defined.md U2, U9) stands at the end. -/

namespace Sys2Proof

/-- The parameters of R6, with R6's defaults (log 1). -/
structure Config where
  /-- SW: width of a sample register (D7). -/
  sw : Nat := 32
  /-- IDX_BITS: width of a quantization-table index (D9). -/
  idxBits : Nat := 8
  /-- QW: width of a quantization-table entry (D10). -/
  qw : Nat := 16
  /-- NUM_TABLES: number of quantization-table sets (D14). -/
  numTables : Nat := 8
  /-- SKIP_PROBE_INDEX: where arrays 3 and 4 are tested for the shortcut (D11); the default is `Mask(0)`. -/
  skipProbeIndex : Nat := 0
  /-- WIDTH_BITS: width of G_WIDTH (D15). -/
  widthBits : Nat := 32
  /-- NSL_BITS: width of G_NUMH and of the SIDX field (D15). -/
  nslBits : Nat := 16
  /-- CS_BITS: width of G_CSHIFT (D15). -/
  csBits : Nat := 3
  /-- MAX_PLANES: entries in the SliceContext's per-plane vectors (D25). -/
  maxPlanes : Nat := 4
  /-- ADDR_BITS: byte-address width of the host-bus window (D2). -/
  addrBits : Nat := 17
  /-- CMD_LATENCY: from a CMD write to its completion (D6). R6 leaves it unspecified, so the default is no value; no rule
  depends on it (R196), so nothing reads it (log 9). -/
  cmdLatency : Option Nat := none
deriving DecidableEq, Repr

namespace Config

/-- Every parameter at its default of R6. -/
def default : Config := {}

/-- The parameter values the model stands for. NUM_TABLES from 1 to 8 is R6's own range. The other bounds are what the bus
gives the widths (DEDUCED, log 1): a register is a 32-bit word, an index is address[9:2], an entry is stored in 16 bits,
SIDX is in CMD[31:16], the register map has four SC_RCT registers, and the table addresses of R36 need 17 bits. -/
abbrev wf (c : Config) : Prop :=
  (1 ≤ c.sw ∧ c.sw ≤ 32) ∧ (1 ≤ c.idxBits ∧ c.idxBits ≤ 8) ∧ (1 ≤ c.qw ∧ c.qw ≤ 16) ∧
    (1 ≤ c.numTables ∧ c.numTables ≤ 8) ∧ c.skipProbeIndex < 2 ^ c.idxBits ∧
    (1 ≤ c.widthBits ∧ c.widthBits ≤ 32) ∧ (1 ≤ c.nslBits ∧ c.nslBits ≤ 16) ∧ (1 ≤ c.csBits ∧ c.csBits ≤ 32) ∧
    (1 ≤ c.maxPlanes ∧ c.maxPlanes ≤ 4) ∧ 17 ≤ c.addrBits

/-- NUM_ARRAYS: arrays per quantization table, fixed by the source (R6, R35). -/
abbrev numArrays : Nat := 5

/-- RL_ENTRIES: entries of the run-length ROM, fixed by the source (R6, R140). -/
abbrev rlEntries : Nat := 41

/-- FREE VALUE (log 4). What a draw finds in an unwritten table entry (R37, R168, U2, U9: "any value"), by the instance's
stream, the number of the draw, and the entry's t, a and k. Nothing constrains it: no two entries, instances or draws are
known to give one value. -/
opaque freeEntry (stream draw t a k : Nat) : BitVec 16

end Config

end Sys2Proof
end

