-- ==== Sys2Proof/WellFormed.lean ====
section
/-! DEFINITION. Which commands an assembler can encode (30_encoding.md R79): every field inside its range of R72. A
well-formed command may still fault when it runs (`RLT 41`). -/

namespace Sys2Proof

/-- R79: "An assembler refuses a field value outside its range, because it cannot encode it." SIDX has NSL_BITS bits (R6):
0 to 65535 at the default. -/
def Instr.wellFormed (c : Config) : Instr → Bool
  | .nop => true
  | .pred => true
  | .ctx tidx => tidx < 8
  | .scoord sidx => sidx < 2 ^ c.nslBits
  | .rlt cls => cls < 64

end Sys2Proof
end

