-- ==== Sys2Proof/Decode.lean ====
section
/-! DEFINITION. From command words to commands and back (30_encoding.md R70 to R79), the byte order of a word (20_memory.md
R52), and the opcode table of R76. -/

namespace Sys2Proof

/-- `v[hi:lo]` of R7, as an unsigned number. -/
def bits (w : Word) (hi lo : Nat) : Nat :=
  w.toNat / 2 ^ lo % 2 ^ (hi - lo + 1)

/-- Byte `j` of a word: bits [8j+7 : 8j] (R52). -/
def leByte (w : Word) (j : Nat) : Byte :=
  BitVec.ofNat 8 (w.toNat / 2 ^ (8 * j))

/-- The word whose bytes, lowest address first, are `b0 b1 b2 b3` (R52). -/
def wordOfBytes (b0 b1 b2 b3 : Byte) : Word :=
  BitVec.ofNat 32 (b0.toNat + b1.toNat * 2 ^ 8 + b2.toNat * 2 ^ 16 + b3.toNat * 2 ^ 24)

/-- Why a word is no command (R77). -/
inductive IllegalCmd where
  /-- OP is 0x5 to 0xF. -/
  | reservedOpcode (op : Nat)
  /-- OP is in use, but a reserved bit of its format is 1. -/
  | reservedBits (op : Nat)
  /-- Fewer than the four bytes of a command word were given. -/
  | truncated
deriving DecidableEq, Repr

/-- The decode function of R78, total on every word; `ILLEGAL` says which clause of R77 holds. SIDX is the NSL_BITS bits
from bit 16 (R6, R72); at an NSL_BITS below 16 the bits above it belong to no field and are reserved (log 1). -/
def decode (c : Config) (w : Word) : Except IllegalCmd Instr :=
  let op := bits w 3 0
  if op = 0x0 ∧ bits w 31 4 = 0 then .ok .nop
  else if op = 0x1 ∧ bits w 31 4 = 0 then .ok .pred
  else if op = 0x2 ∧ bits w 31 7 = 0 then .ok (.ctx (bits w 6 4))
  else if op = 0x3 ∧ bits w 15 4 = 0 ∧ bits w 31 16 < 2 ^ c.nslBits then .ok (.scoord (bits w 31 16))
  else if op = 0x4 ∧ bits w 31 10 = 0 then .ok (.rlt (bits w 9 4))
  else if op < 5 then .error (.reservedBits op)
  else .error (.reservedOpcode op)

/-- Decode from the bytes a host sees, lowest address first (R52, R70), with the bytes left over. -/
def decodeBytes (c : Config) : List Byte → Except IllegalCmd (Instr × List Byte)
  | b0 :: b1 :: b2 :: b3 :: rest => (decode c (wordOfBytes b0 b1 b2 b3)).map (·, rest)
  | _ => .error .truncated

/-- The word a command assembles to (R79). The fields lie above the opcode's four bits, so R79's `|` is a sum. -/
def encode : Instr → Word
  | .nop => 0x00000000
  | .pred => 0x00000001
  | .ctx tidx => BitVec.ofNat 32 (tidx * 2 ^ 4 + 0x2)
  | .scoord sidx => BitVec.ofNat 32 (sidx * 2 ^ 16 + 0x3)
  | .rlt cls => BitVec.ofNat 32 (cls * 2 ^ 4 + 0x4)

/-- The four bytes of an encoded command, lowest address first (R52). -/
def encodeBytes (i : Instr) : List Byte :=
  [leByte (encode i) 0, leByte (encode i) 1, leByte (encode i) 2, leByte (encode i) 3]

/-- A row of the opcode map (R76): a word `w` encodes the mnemonic exactly when `(w AND mask) = pattern`. -/
structure OpcodeRow where
  mnemonic : String
  mask : Word
  pattern : Word
deriving DecidableEq, Repr

/-- The opcode map of R76, whose SCOORD row is that of NSL_BITS = 16. -/
def opcodeRows : List OpcodeRow :=
  [⟨"NOP", 0xFFFFFFFF, 0x00000000⟩,
   ⟨"PRED", 0xFFFFFFFF, 0x00000001⟩,
   ⟨"CTX", 0xFFFFFF8F, 0x00000002⟩,
   ⟨"SCOORD", 0x0000FFFF, 0x00000003⟩,
   ⟨"RLT", 0xFFFFFC0F, 0x00000004⟩]

/-- The command word whose low `nbits` bits are `w` and whose other bits are 0. -/
def tableWord (nbits w : Nat) : Word :=
  BitVec.ofNat 32 (w % 2 ^ nbits)

/-- The command this decoder reads, at the parameters' defaults, from the word `w` of an opcode-table row; `none` where it
refuses. -/
def decodeTableWord (nbits w : Nat) : Option Instr :=
  match decode Config.default (tableWord nbits w) with
  | .ok i => some i
  | .error _ => none

end Sys2Proof
end

