-- ==== Sys2Proof/Machine/State.lean ====
section
/-! DEFINITION. The state of one PXC instance as plain data (10_state.md R20 to R42), its value after reset
(70_reset_and_hazards.md R190), the host's events, the model-only fault, and the refusals. -/

namespace Sys2Proof.Machine

/-- The registers of R20 that hold state. CMD holds none (R26) and is not among them. -/
inductive Reg where
  | RESULT | STATUS | CFG
  | S_LL | S_L | S_LT | S_T | S_RT | S_TT
  | G_WIDTH | G_NUMH | G_CSHIFT
  | SC_POS_X | SC_POS_Y | SC_DIM_W | SC_DIM_H | SC_QTI | SC_CTXCNT | SC_MODE
  | SC_RCT0 | SC_RCT1 | SC_RCT2 | SC_RCT3
deriving DecidableEq, Repr

/-- The fault causes STATUS.CAUSE can record (60_exceptions.md R161). Cause 0, NONE, stands for no fault and is never
raised. -/
inductive FaultCause where
  | illegalCmd | tableRange | widthZero | slicesZero | sliceIndexRange | rlClassRange
deriving DecidableEq, Repr

/-- Table storage: the written bytes of the window, by window byte address. An address that is not listed holds no value
(R37). -/
abbrev Memory := List Host.Cell

/-- The canonical form: addresses strictly rising. Every listed byte differs from an unlisted one, which has no value. -/
abbrev Memory.wf (m : Memory) : Prop :=
  m.Pairwise (fun x y => x.1 < y.1)

/-- One thing the outside does to PXC: a bus access (20_memory.md R51), at a byte address relative to the window's
base and with the bus's byte enables, or a completed reset (R190). -/
inductive HostEvent where
  | read (addr : Nat) (be : BitVec 4)
  | write (addr : Nat) (be : BitVec 4) (v : Word)
  | reset
deriving DecidableEq, Repr

/-- The faults that are the MODEL's and have no STATUS code. No step stops with one: it is recorded in
`State.modelFault`, and PXC goes on as the hardware does. -/
inductive Fault where
  /-- UNINIT_TABLE (R37, R168): raised by a CTX that reads a table entry not written since reset, which computes RESULT
  from a free value for that entry. Safe: any value stands for the hardware's unspecified one (log 2). -/
  | uninitTable
deriving DecidableEq, Repr

/-- One PXC instance. The registers are those of R20, each a 32-bit word of which R20 says which bits are used. -/
structure State where
  /-- RESULT (R27). -/
  result : Word
  /-- STATUS: FAULT [0], CAUSE [11:8] (R28). -/
  status : Word
  /-- CFG: GEOM_LEGACY [0] (R29). -/
  cfg : Word
  /-- S_LL (R22). -/
  sLL : Word
  /-- S_L (R22). -/
  sL : Word
  /-- S_LT (R22). -/
  sLT : Word
  /-- S_T (R22). -/
  sT : Word
  /-- S_RT (R22). -/
  sRT : Word
  /-- S_TT (R22). -/
  sTT : Word
  /-- G_WIDTH (R23). -/
  gWidth : Word
  /-- G_NUMH [15:0] (R24). -/
  gNumh : Word
  /-- G_CSHIFT [2:0] (R25). -/
  gCshift : Word
  /-- SC_POS_X (R30). -/
  scPosX : Word
  /-- SC_POS_Y (R30). -/
  scPosY : Word
  /-- SC_DIM_W (R30). -/
  scDimW : Word
  /-- SC_DIM_H (R30). -/
  scDimH : Word
  /-- SC_QTI: four 3-bit table indices (R31). -/
  scQti : Word
  /-- SC_CTXCNT (R32). -/
  scCtxcnt : Word
  /-- SC_MODE: CODING_MODE [0], RESET_CONTEXTS [1] (R33). -/
  scMode : Word
  /-- SC_RCT0 (R33). -/
  scRct0 : Word
  /-- SC_RCT1 (R33). -/
  scRct1 : Word
  /-- SC_RCT2 (R33). -/
  scRct2 : Word
  /-- SC_RCT3 (R33). -/
  scRct3 : Word
  /-- The quantization tables (R35 to R37). -/
  qtab : Memory
  /-- The model-only fault, if one was raised since reset (R168); only a reset discards it (R191; log 2). -/
  modelFault : Option Fault
  /-- The implementation's parameters (R6); no step changes them (log 1). -/
  config : Config
  /-- MODEL's own: host events not yet performed, oldest first (R56; log 5). -/
  inbox : List HostEvent
  /-- MODEL's own: the words returned by reads, newest first (log 6). -/
  replies : List Word
  /-- MODEL's own: how many times free values have been drawn (log 4). -/
  draws : Nat
  /-- MODEL's own: which instance's unknown table contents the free values are (R42, R172; log 4). -/
  stream : Nat
deriving DecidableEq, Repr

/-- The state when reset completes (R190): every register 0, every table entry without a value, no fault, the parameters
at their defaults, and nothing pending from the host. -/
def State.reset : State where
  result := 0
  status := 0
  cfg := 0
  sLL := 0
  sL := 0
  sLT := 0
  sT := 0
  sRT := 0
  sTT := 0
  gWidth := 0
  gNumh := 0
  gCshift := 0
  scPosX := 0
  scPosY := 0
  scDimW := 0
  scDimH := 0
  scQti := 0
  scCtxcnt := 0
  scMode := 0
  scRct0 := 0
  scRct1 := 0
  scRct2 := 0
  scRct3 := 0
  qtab := []
  modelFault := none
  config := Config.default
  inbox := []
  replies := []
  draws := 0
  stream := 0

/-- The reasons the model refuses. -/
inductive Refusal where
  /-- Raised by an arm of `exec` for a command that has no meaning yet; no arm does. Safe: the model stops. -/
  | notModelled (mnemonic : String)
deriving DecidableEq, Repr

/-- What a meaning or a step answers. PXC's own faults are next states with STATUS set (R162). -/
abbrev Outcome := Host.Outcome State Fault Refusal

end Sys2Proof.Machine
end

