-- ==== Sys2Proof/Machine/Flags.lean ====
section
/-! DEFINITION. STATUS, the only flags PXC has (10_state.md R28): its fields, and the word a fault leaves in it
(60_exceptions.md R161, R162). No command sets a flag except by faulting. -/

namespace Sys2Proof.Machine

/-- The code of a cause (R161). -/
def FaultCause.code : FaultCause → Nat
  | .illegalCmd => 1
  | .tableRange => 2
  | .widthZero => 3
  | .slicesZero => 4
  | .sliceIndexRange => 5
  | .rlClassRange => 6

/-- `(c << 8) | 1` of R162: FAULT = 1, CAUSE = c. -/
def statusWord (c : FaultCause) : Word :=
  BitVec.ofNat 32 (c.code * 2 ^ 8 + 1)

/-- STATUS.FAULT = 1 (R28). -/
def State.faulted (s : State) : Bool :=
  s.status.getLsbD 0

/-- STATUS.CAUSE (R28). -/
def State.cause (s : State) : Nat :=
  bits s.status 11 8

end Sys2Proof.Machine
end

