-- ==== Sys2Proof/Machine/Ops.lean ====
section
/-! DEFINITION. The named operations of R8 and R9: width operators, register access, table storage, completing a command,
raising a fault (60_exceptions.md R162) and, beside it, the reset that is the only way out of one (R165, R190). -/

namespace Sys2Proof.Machine

/-- `sext_N(v)` of R8: the low N bits of v as a two's-complement integer. -/
def sextN (n v : Nat) : Int :=
  (v : Int).bmod (2 ^ n)

/-- `zext_N(v)` of R8: the low N bits of v as a number. -/
def zextN (n v : Nat) : Nat :=
  v % 2 ^ n

/-- `wrap_32(v)` of R8, as the word that holds it. -/
def wrap32 (v : Int) : Word :=
  BitVec.ofInt 32 v

/-- `x[R]` of R9. -/
def State.reg (s : State) : Reg → Word
  | .RESULT => s.result
  | .STATUS => s.status
  | .CFG => s.cfg
  | .S_LL => s.sLL
  | .S_L => s.sL
  | .S_LT => s.sLT
  | .S_T => s.sT
  | .S_RT => s.sRT
  | .S_TT => s.sTT
  | .G_WIDTH => s.gWidth
  | .G_NUMH => s.gNumh
  | .G_CSHIFT => s.gCshift
  | .SC_POS_X => s.scPosX
  | .SC_POS_Y => s.scPosY
  | .SC_DIM_W => s.scDimW
  | .SC_DIM_H => s.scDimH
  | .SC_QTI => s.scQti
  | .SC_CTXCNT => s.scCtxcnt
  | .SC_MODE => s.scMode
  | .SC_RCT0 => s.scRct0
  | .SC_RCT1 => s.scRct1
  | .SC_RCT2 => s.scRct2
  | .SC_RCT3 => s.scRct3

/-- `x[R] <- v` of R9. -/
def State.setReg (s : State) (r : Reg) (v : Word) : State :=
  match r with
  | .RESULT => { s with result := v }
  | .STATUS => { s with status := v }
  | .CFG => { s with cfg := v }
  | .S_LL => { s with sLL := v }
  | .S_L => { s with sL := v }
  | .S_LT => { s with sLT := v }
  | .S_T => { s with sT := v }
  | .S_RT => { s with sRT := v }
  | .S_TT => { s with sTT := v }
  | .G_WIDTH => { s with gWidth := v }
  | .G_NUMH => { s with gNumh := v }
  | .G_CSHIFT => { s with gCshift := v }
  | .SC_POS_X => { s with scPosX := v }
  | .SC_POS_Y => { s with scPosY := v }
  | .SC_DIM_W => { s with scDimW := v }
  | .SC_DIM_H => { s with scDimH := v }
  | .SC_QTI => { s with scQti := v }
  | .SC_CTXCNT => { s with scCtxcnt := v }
  | .SC_MODE => { s with scMode := v }
  | .SC_RCT0 => { s with scRct0 := v }
  | .SC_RCT1 => { s with scRct1 := v }
  | .SC_RCT2 => { s with scRct2 := v }
  | .SC_RCT3 => { s with scRct3 := v }

/-- The table storage replaced. -/
def State.setQtab (s : State) (m : Memory) : State :=
  { s with qtab := m }

/-- The pending host events replaced. -/
def State.setInbox (s : State) (es : List HostEvent) : State :=
  { s with inbox := es }

/-- A word handed back to the host by a read. -/
def State.reply (s : State) (w : Word) : State :=
  { s with replies := w :: s.replies }

/-- Free values have been drawn once more. -/
def State.countDraw (s : State) : State :=
  { s with draws := s.draws + 1 }

/-- The model-only fault `f` is recorded (R168). -/
def State.latch (s : State) (f : Fault) : State :=
  { s with modelFault := some f }

/-- The byte at a window address, if something has written it since reset (R37). -/
def Memory.readByte (m : Memory) (a : Nat) : Option Byte :=
  match m with
  | [] => none
  | (a', b) :: rest => if a' = a then some b else Memory.readByte rest a

/-- Write one byte, keeping the addresses strictly rising. -/
def Memory.writeByte (m : Memory) (a : Nat) (b : Byte) : Memory :=
  match m with
  | [] => [(a, b)]
  | (a', b') :: rest =>
    if a < a' then (a, b) :: (a', b') :: rest
    else if a' = a then (a, b) :: rest
    else (a', b') :: Memory.writeByte rest a b

/-- The window byte address of entry k of array a of table t (R36). -/
def entryAddr (t a k : Nat) : Nat :=
  0x10000 + t * 0x2000 + a * 0x400 + k * 4

/-- The stored bits of an entry, `none` if it has not been written since reset (R36, R37). An entry is two bytes, at its
address and the next (log 3). -/
def Memory.readEntry (m : Memory) (t a k : Nat) : Option (BitVec 16) :=
  match m.readByte (entryAddr t a k), m.readByte (entryAddr t a k + 1) with
  | some lo, some hi => some (BitVec.ofNat 16 (lo.toNat + hi.toNat * 2 ^ 8))
  | _, _ => none

/-- A bus write of v to an entry keeps the low QW bits (R36: `v[15:0]` at the default) and ignores the others. -/
def Memory.writeEntry (qw : Nat) (m : Memory) (t a k : Nat) (v : Word) : Memory :=
  let e : Word := BitVec.ofNat 32 (v.toNat % 2 ^ qw)
  (m.writeByte (entryAddr t a k) (leByte e 0)).writeByte (entryAddr t a k + 1) (leByte e 1)

/-- `Q(t, a, k)` of R9 and R36: the entry as a signed integer; `none` for an entry that holds no value (R37). -/
def qEntry (s : State) (t a k : Nat) : Option Int :=
  (s.qtab.readEntry t a k).map (fun e => sextN s.config.qw e.toNat)

/-- What the next draw finds in entry k of array a of table t if nothing has written it, sign-extended like any entry (R37,
U9). One draw gives each entry a value of its own. The model's choice (log 4): the value is that of the state's stream and
count of draws, so two states in which these are equal find the same value in the same entry. -/
def drawEntry (s : State) (t a k : Nat) : Int :=
  sextN s.config.qw (Config.freeEntry s.stream s.draws t a k).toNat

/-- The entry's value where it holds one (`Q(t, a, k)` of R36), else the next draw's. -/
def entryValue (s : State) (t a k : Nat) : Int :=
  (qEntry s t a k).getD (drawEntry s t a k)

/-- A command completes: it writes RESULT and nothing else (44_control.md R151). -/
def complete (v : Word) (s : State) : Outcome :=
  .next (s.setReg .RESULT v)

/-- `raise Fault(c)` of R162: STATUS is written, nothing else; there is no handler and the machine goes on. -/
def raiseFault (c : FaultCause) (s : State) : Outcome :=
  .next (s.setReg .STATUS (statusWord c))

/-- A CTX completes with a RESULT `v` computed from free values, and raises the model-only fault UNINIT_TABLE (R168). The
fault has no STATUS code, so STATUS is not written. All the values are of one draw (log 2). -/
def completeUninit (v : Word) (s : State) : Outcome :=
  .next (((s.setReg .RESULT v).countDraw).latch .uninitTable)

/-- Reset (R190, R191), the only way to leave the faulted state (R165): every register and every table entry goes to its
value after reset, and any fault is discarded, the model-only one too. The parameters, and the model's record of the host, stay (log 8). -/
def applyReset (s : State) : State :=
  { State.reset with
    config := s.config, inbox := s.inbox, replies := s.replies, draws := s.draws, stream := s.stream }

end Sys2Proof.Machine
end

