-- ==== Sys2Proof/Machine/Operands.lean ====
section
/-! DEFINITION. The operands of the commands (30_encoding.md R81): samples, geometry, table lookups, and the fields of the
SliceContext record (10_state.md R22 to R36, 44_control.md R154). -/

namespace Sys2Proof.Machine

/-- A sample register as a signed integer: `sext_32(x[S_*])` of R22 at the default SW. -/
def sample (s : State) (r : Reg) : Int :=
  sextN s.config.sw (s.reg r).toNat

/-- `width` = `zext_32(x[G_WIDTH])` (R23) at the default WIDTH_BITS. -/
def width (s : State) : Nat :=
  zextN s.config.widthBits (s.reg .G_WIDTH).toNat

/-- `num_h_slices` = `zext_16(x[G_NUMH][15:0])` (R24) at the default NSL_BITS. -/
def numHSlices (s : State) : Nat :=
  zextN s.config.nslBits (s.reg .G_NUMH).toNat

/-- `chroma_shift` = `zext_3(x[G_CSHIFT][2:0])` (R25) at the default CS_BITS. -/
def chromaShift (s : State) : Nat :=
  zextN s.config.csBits (s.reg .G_CSHIFT).toNat

/-- CFG.GEOM_LEGACY = 1 selects the legacy algorithm (R29). -/
def geomLegacy (s : State) : Bool :=
  (s.reg .CFG).getLsbD 0

/-- `Mask(d)` of R10: the difference modulo 2^IDX_BITS. -/
def maskIndex (c : Config) (d : Int) : Nat :=
  (d % 2 ^ c.idxBits).toNat

/-- The difference that indexes array `a` (R102), exact over the integers. -/
def difference (s : State) (a : Nat) : Int :=
  match a with
  | 0 => sample s .S_L - sample s .S_LT
  | 1 => sample s .S_LT - sample s .S_T
  | 2 => sample s .S_T - sample s .S_RT
  | 3 => sample s .S_LL - sample s .S_L
  | _ => sample s .S_TT - sample s .S_T

/-- `Mask(d_a)` of R100: the index CTX looks array `a` up at. -/
def lookupIndex (s : State) (a : Nat) : Nat :=
  maskIndex s.config (difference s a)

/-- `Q(t, a, Mask(d_a))` (R100, R103). -/
def lookup (s : State) (t a : Nat) : Option Int :=
  qEntry s t a (lookupIndex s a)

/-- The probe entry of array 3 or 4: `Q(t, a, SKIP_PROBE_INDEX)` (R101). -/
def probe (s : State) (t a : Nat) : Option Int :=
  qEntry s t a s.config.skipProbeIndex

/-- `SKIP(t)` (R38, R101): both probe entries are 0. It is computed from the current entries, never stored. `none` if a
probe entry holds no value. -/
def skip (s : State) (t : Nat) : Option Bool :=
  match probe s t 3, probe s t 4 with
  | some q3, some q4 => some (decide (q3 = 0) && decide (q4 = 0))
  | _, _ => none

/-- `coding_mode` (R33). -/
inductive CodingMode where
  | rangeCoder | golomb
deriving DecidableEq, Repr

/-- SC_MODE.CODING_MODE (R33). -/
def codingMode (s : State) : CodingMode :=
  if (s.reg .SC_MODE).getLsbD 0 then .golomb else .rangeCoder

/-- SC_MODE.RESET_CONTEXTS (R33). -/
def resetContexts (s : State) : Bool :=
  (s.reg .SC_MODE).getLsbD 1

/-- Plane p's quantization-table index: SC_QTI[4p+2 : 4p], for p below MAX_PLANES (R31). -/
def planeTable (s : State) (p : Nat) : Nat :=
  bits (s.reg .SC_QTI) (4 * p + 2) (4 * p)

/-- Plane p's opaque colour-transform coefficient (R33). -/
def planeRct (s : State) (p : Nat) : Word :=
  match p with
  | 0 => s.reg .SC_RCT0
  | 1 => s.reg .SC_RCT1
  | 2 => s.reg .SC_RCT2
  | _ => s.reg .SC_RCT3

/-- The SliceContext record (R154), as the register bank holds it. -/
structure SliceContext where
  slicePos : Nat × Nat
  sliceDim : Nat × Nat
  tableIndex : List Nat
  rctCoefficient : List Word
  contextCount : Nat
  codingMode : CodingMode
  resetContexts : Bool
deriving DecidableEq, Repr

/-- The SliceContext held in the SC_* registers (R30 to R34, R154). -/
def sliceContext (s : State) : SliceContext where
  slicePos := ((s.reg .SC_POS_X).toNat, (s.reg .SC_POS_Y).toNat)
  sliceDim := ((s.reg .SC_DIM_W).toNat, (s.reg .SC_DIM_H).toNat)
  tableIndex := (List.range s.config.maxPlanes).map (planeTable s)
  rctCoefficient := (List.range s.config.maxPlanes).map (planeRct s)
  contextCount := (s.reg .SC_CTXCNT).toNat
  codingMode := codingMode s
  resetContexts := resetContexts s

end Sys2Proof.Machine
end

