-- ==== Sys2Proof/Machine/Bus.lean ====
section
/-! DEFINITION. The register map and the window's decode (10_state.md R20, R36; 20_memory.md R50 to R54), and reads and
writes of everything but CMD (44_control.md R152, R153). -/

namespace Sys2Proof.Machine

/-- The registers in the order of R20. -/
def Reg.all : List Reg :=
  [.RESULT, .STATUS, .CFG, .S_LL, .S_L, .S_LT, .S_T, .S_RT, .S_TT, .G_WIDTH, .G_NUMH, .G_CSHIFT,
   .SC_POS_X, .SC_POS_Y, .SC_DIM_W, .SC_DIM_H, .SC_QTI, .SC_CTXCNT, .SC_MODE,
   .SC_RCT0, .SC_RCT1, .SC_RCT2, .SC_RCT3]

/-- The byte offset of a register (R20). -/
def Reg.offset : Reg → Nat
  | .RESULT => 0x004
  | .STATUS => 0x008
  | .CFG => 0x00C
  | .S_LL => 0x010
  | .S_L => 0x014
  | .S_LT => 0x018
  | .S_T => 0x01C
  | .S_RT => 0x020
  | .S_TT => 0x024
  | .G_WIDTH => 0x028
  | .G_NUMH => 0x02C
  | .G_CSHIFT => 0x030
  | .SC_POS_X => 0x040
  | .SC_POS_Y => 0x044
  | .SC_DIM_W => 0x048
  | .SC_DIM_H => 0x04C
  | .SC_QTI => 0x050
  | .SC_CTXCNT => 0x054
  | .SC_MODE => 0x058
  | .SC_RCT0 => 0x060
  | .SC_RCT1 => 0x064
  | .SC_RCT2 => 0x068
  | .SC_RCT3 => 0x06C

/-- The offset of CMD (R20). -/
def cmdOffset : Nat := 0x000

/-- Access type RW rather than RO (R20). -/
def Reg.writable : Reg → Bool
  | .RESULT => false
  | .STATUS => false
  | _ => true

/-- The word whose low `n` bits are 1. -/
def lowMask (n : Nat) : Word :=
  BitVec.ofNat 32 (2 ^ n - 1)

/-- The bits of SC_QTI that `n` planes use: [4p+2 : 4p] for p below n (R31). -/
def planesMask (n : Nat) : Word :=
  BitVec.ofNat 32 (((List.range n).map (fun p => 7 * 2 ^ (4 * p))).sum)

/-- The coefficient register of plane p is used where the plane exists (R33, MAX_PLANES of R6). -/
def planeMask (c : Config) (p : Nat) : Word :=
  if p < c.maxPlanes then 0xFFFFFFFF else 0

/-- The bits a register uses (R20, at the widths of R6): the others read as 0 and ignore writes (log 1). -/
def Reg.mask (c : Config) : Reg → Word
  | .STATUS => 0x00000F01
  | .CFG => 0x00000001
  | .S_LL | .S_L | .S_LT | .S_T | .S_RT | .S_TT => lowMask c.sw
  | .G_WIDTH => lowMask c.widthBits
  | .G_NUMH => lowMask c.nslBits
  | .G_CSHIFT => lowMask c.csBits
  | .SC_QTI => planesMask c.maxPlanes
  | .SC_MODE => 0x00000003
  | .SC_RCT0 => planeMask c 0
  | .SC_RCT1 => planeMask c 1
  | .SC_RCT2 => planeMask c 2
  | .SC_RCT3 => planeMask c 3
  | _ => 0xFFFFFFFF

/-- What an address reaches. -/
inductive Loc where
  | cmd
  | reg (r : Reg)
  | entry (t a k : Nat)
  /-- Reserved, unmapped or misaligned: reads as zero, writes ignored (R53, R54). -/
  | none
  /-- Outside the window of 2^ADDR_BITS bytes: not PXC's (R50). -/
  | outside
deriving DecidableEq, Repr

/-- The window's decode, over all ADDR_BITS address bits (R54): the register map of R20 below 0x10000, and from there
address[15:13] = t, address[12:10] = a, address[9:2] = k (R36). No address aliases another. -/
def locate (c : Config) (n : Nat) : Loc :=
  if 2 ^ c.addrBits ≤ n then .outside
  else if n % 4 ≠ 0 then .none
  else if n < 0x10000 then
    if n = cmdOffset then .cmd
    else
      match Reg.all.find? (fun r => r.offset == n) with
      | some r => .reg r
      | Option.none => .none
  else
    let t := (n - 0x10000) / 0x2000
    let a := n / 0x400 % 8
    let k := n / 4 % 256
    if t < c.numTables ∧ a < Config.numArrays ∧ k < 2 ^ c.idxBits then .entry t a k else .none

/-- A bus read's word for a register: its value with unused bits 0 (R153). -/
def readReg (r : Reg) (s : State) : Word :=
  s.reg r &&& r.mask s.config

/-- A bus write to a register (R152): masked to the bits it uses, ignored where it is read-only. -/
def writeReg (r : Reg) (v : Word) (s : State) : State :=
  if r.writable then s.setReg r (v &&& r.mask s.config) else s

/-- A bus write to anything but CMD (R152). It does not depend on the fault state. -/
def writeLoc (l : Loc) (v : Word) (s : State) : State :=
  match l with
  | .cmd => s
  | .reg r => writeReg r v s
  | .entry t a k => s.setQtab (s.qtab.writeEntry s.config.qw t a k v)
  | .none => s
  | .outside => s

/-- `MemRead(addr, 4)` (R51, R153): the word goes back to the host, and no register or table entry changes (R55). The byte
enables do not matter (R51). An entry that holds no value gives a free word (R37, U9). Outside the window PXC does not answer. -/
def busRead (addr : Nat) (s : State) : State :=
  match locate s.config addr with
  | .cmd => s.reply 0
  | .reg r => s.reply (readReg r s)
  | .entry t a k =>
    match qEntry s t a k with
    | some q => s.reply (wrap32 q)
    | Option.none => (s.reply (wrap32 (drawEntry s t a k))).countDraw
  | .none => s.reply 0
  | .outside => s

end Sys2Proof.Machine
end

