-- ==== Sys2Proof/Machine/Context.lean ====
section
/-! DEFINITION. CTX (41_context.md R100 to R108). Where an entry CTX reads has not been written since reset, the hardware
uses some value and goes on (93_implementation_defined.md U2): the sum takes a free value there (log 2). -/

namespace Sys2Proof.Machine

/-- The five lookups of R100: `Q(t, a, Mask(d_a))`, an unwritten one drawn. -/
def lookupValue (s : State) (t a : Nat) : Int :=
  entryValue s t a (lookupIndex s a)

/-- The two probes of R101, an unwritten one drawn. -/
def probeValue (s : State) (t a : Nat) : Int :=
  entryValue s t a s.config.skipProbeIndex

/-- The context index `r` of R100: the first three lookups, and the second-order two unless SKIP(t) (R101). -/
def contextValue (s : State) (t : Nat) : Int :=
  let base := lookupValue s t 0 + lookupValue s t 1 + lookupValue s t 2
  if probeValue s t 3 = 0 ∧ probeValue s t 4 = 0 then base
  else base + lookupValue s t 3 + lookupValue s t 4

/-- CTX reads an entry that holds no value: a first-order entry, a probe entry (both are always read: R107, R192), or,
when SKIP(t) is false, a second-order entry (R101, R168). -/
def readsUnwritten (s : State) (t : Nat) : Bool :=
  (lookup s t 0).isNone || (lookup s t 1).isNone || (lookup s t 2).isNone || (probe s t 3).isNone ||
    (probe s t 4).isNone || (skip s t == some false && ((lookup s t 3).isNone || (lookup s t 4).isNone))

/-- CTX (R100). RESULT is the raw signed sum (R104). -/
def execCtx (tidx : Nat) (s : State) : Outcome :=
  if s.config.numTables ≤ tidx then raiseFault .tableRange s
  else if readsUnwritten s tidx then completeUninit (wrap32 (contextValue s tidx)) s
  else complete (wrap32 (contextValue s tidx)) s

end Sys2Proof.Machine
end

