-- ==== Sys2Proof/Machine/Control.lean ====
section
/-! DEFINITION. NOP (44_control.md R150). -/

namespace Sys2Proof.Machine

/-- NOP (R150): every piece of state is unchanged. -/
def execNop (s : State) : Outcome :=
  .next s

end Sys2Proof.Machine
end

