-- ==== Sys2Proof/Machine/Geometry.lean ====
section
/-! DEFINITION. SCOORD (42_slice_geometry.md R120 to R129). All arithmetic is exact (R127); division is the floor of
non-negative numbers. -/

namespace Sys2Proof.Machine

/-- `awidth`: width rounded up to a multiple of `mpw = 2^cs` (R121). -/
def alignedWidth (width cs : Nat) : Nat :=
  2 ^ cs * ((width + 2 ^ cs - 1) / 2 ^ cs)

/-- The current algorithm's boundary before the clamp (R120, R121). -/
def rawBoundary (width n cs i : Nat) : Nat :=
  (2 * alignedWidth width cs * i + n * 2 ^ cs) / (2 * n * 2 ^ cs) * 2 ^ cs

/-- The current algorithm (R121): a result equal to `awidth` is clamped to `width`, whatever the index. -/
def currentBoundary (width n cs i : Nat) : Nat :=
  if rawBoundary width n cs i = alignedWidth width cs then width else rawBoundary width n cs i

/-- The legacy algorithm (R123). -/
def legacyBoundary (width n i : Nat) : Nat :=
  width * i / n

/-- SCOORD (R120): the checks of R122 in their order, then the algorithm CFG.GEOM_LEGACY selects (R129). -/
def execScoord (sidx : Nat) (s : State) : Outcome :=
  if width s = 0 then raiseFault .widthZero s
  else if numHSlices s = 0 then raiseFault .slicesZero s
  else if numHSlices s < sidx then raiseFault .sliceIndexRange s
  else if geomLegacy s then
    complete (BitVec.ofNat 32 (legacyBoundary (width s) (numHSlices s) sidx)) s
  else
    complete (BitVec.ofNat 32 (currentBoundary (width s) (numHSlices s) (chromaShift s) sidx)) s

/-- The current algorithm on the 50-bit unsigned datapath of R127. -/
def currentBoundary50 (width n cs i : BitVec 50) : BitVec 50 :=
  let mpw := 1#50 <<< cs
  let awidth := mpw * ((width + mpw - 1#50) / mpw)
  let b := (2#50 * awidth * i + n * mpw) / (2#50 * n * mpw) * mpw
  if b = awidth then width else b

/-- The legacy algorithm on the 50-bit unsigned datapath of R127. -/
def legacyBoundary50 (width n i : BitVec 50) : BitVec 50 :=
  width * i / n

end Sys2Proof.Machine
end

