-- ==== Sys2Proof/Machine/Predictor.lean ====
section
/-! DEFINITION. PRED (40_predictor.md R90 to R93). -/

namespace Sys2Proof.Machine

/-- The middle of three values, counting repeats (R8). -/
def median3 (a b c : Int) : Int :=
  max (min a b) (min (max a b) c)

/-- The prediction from L, T and LT: the median of L, the exact gradient L + T - LT, and T (R90). -/
def predict (l t lt : Int) : Int :=
  median3 l (l + t - lt) t

/-- PRED (R90): no masking and no bit depth is applied (R93). -/
def execPred (s : State) : Outcome :=
  complete (wrap32 (predict (sample s .S_L) (sample s .S_T) (sample s .S_LT))) s

end Sys2Proof.Machine
end

