-- ==== Sys2Proof/Machine/RunLength.lean ====
section
/-! DEFINITION. RLT and the run-length ROM (43_run_length.md R140 to R142). -/

namespace Sys2Proof.Machine

/-- The ROM, RL(0) to RL(40), as the tables of R140 list it. -/
def runLengthRom : List Nat :=
  [0, 0, 0, 0, 1, 1, 1, 1, 2, 2, 2, 2, 3, 3, 3, 3, 4, 4, 5, 5, 6,
   6, 7, 7, 8, 9, 10, 11, 12, 13, 14, 15, 16, 17, 18, 19, 20, 21, 22, 23, 24]

/-- RLT (R141): a class beyond the ROM's 41 entries faults. -/
def execRlt (cls : Nat) (s : State) : Outcome :=
  match runLengthRom[cls]? with
  | some width => complete (BitVec.ofNat 32 width) s
  | none => raiseFault .rlClassRange s

end Sys2Proof.Machine
end

