-- ==== Sys2Proof/Machine/Dispatch.lean ====
section
/-! DEFINITION. The case split of 44_control.md R151: one arm per command. -/

namespace Sys2Proof.Machine

def exec (i : Instr) (s : State) : Host.Outcome State Fault Refusal :=
  match i with
  | .nop => Sys2Proof.Machine.execNop s
  | .pred => Sys2Proof.Machine.execPred s
  | .ctx tidx => Sys2Proof.Machine.execCtx tidx s
  | .scoord sidx => Sys2Proof.Machine.execScoord sidx s
  | .rlt cls => Sys2Proof.Machine.execRlt cls s

end Sys2Proof.Machine
end

