-- ==== Sys2Proof/Machine/Access.lean ====
section
/-! DEFINITION. One host event performed whole (20_memory.md R56): command execution (44_control.md R151), bus writes and
reads, reset; and the host's own notation for them (30_encoding.md R79, R80). -/

namespace Sys2Proof.Machine

/-- `execute(w)` of R151: ignored while faulted, without being decoded (60_exceptions.md R164); an illegal word faults. -/
def execute (w : Word) (s : State) : Outcome :=
  if s.faulted then .next s
  else
    match decode s.config w with
    | .ok i => exec i s
    | .error _ => raiseFault .illegalCmd s

/-- `MemWrite(addr, 4, v)` (R51, R152): ignored entirely if a byte enable is clear; a write to CMD executes v. -/
def busWrite (addr : Nat) (be : BitVec 4) (v : Word) (s : State) : Outcome :=
  if be ≠ 0xF then .next s
  else
    match locate s.config addr with
    | .cmd => execute v s
    | l => .next (writeLoc l v s)

/-- One host event, performed whole. -/
def hostEvent (e : HostEvent) (s : State) : Outcome :=
  match e with
  | .read addr _ => .next (busRead addr s)
  | .write addr be v => busWrite addr be v s
  | .reset => .next (applyReset s)

/-- Performing the oldest pending event (R56). With none pending, PXC stays as it is (R197; log 5). -/
def performNext (s : State) : Outcome :=
  match s.inbox with
  | [] => .next s
  | e :: rest => hostEvent e (s.setInbox rest)

/-- Go on with `f` after an outcome that goes on; a stop stays as it is. -/
def andThen {α β : Type} (o : Host.Outcome α Fault Refusal) (f : α → Host.Outcome β Fault Refusal) :
    Host.Outcome β Fault Refusal :=
  match o with
  | .next a => f a
  | .fault x => .fault x
  | .refused x => .refused x

/-- The events `es` performed one after another, each on the state the one before it left: the left fold of `hostEvent`
(R56, R59). -/
def performAll (es : List HostEvent) (s : State) : Outcome :=
  es.foldl (fun o e => andThen o (hostEvent e)) (.next s)

/-- `WR CMD, <word>` (R79, R80). -/
def wrCmd (w : Word) : HostEvent :=
  .write cmdOffset 0xF w

/-- A command's mnemonic as the host writes it: the pseudo-instruction of R79. -/
def issue (i : Instr) : HostEvent :=
  wrCmd (encode i)

/-- `WR R, v` (R80). -/
def wr (r : Reg) (v : Word) : HostEvent :=
  .write r.offset 0xF v

/-- `RD R` (R80). -/
def rd (r : Reg) : HostEvent :=
  .read r.offset 0xF

/-- `WRQ t, a, k, v` (R80). -/
def wrq (t a k : Nat) (v : Word) : HostEvent :=
  .write (entryAddr t a k) 0xF v

/-- `RDQ t, a, k` (R80). -/
def rdq (t a k : Nat) : HostEvent :=
  .read (entryAddr t a k) 0xF

/-- The window address a platform address reaches when the window's base is PXC_BASE = `base` (R57, U5; log 7); `none`
outside the window, where PXC is not accessed. -/
def windowAddr (c : Config) (base addr : Nat) : Option Nat :=
  if base ≤ addr ∧ addr < base + 2 ^ c.addrBits then some (addr - base) else Option.none

end Sys2Proof.Machine
end

