-- ==== Sys2Proof/Machine/Step.lean ====
section
/-! DEFINITION. One step of PXC (44_control.md R151: "PXC takes one step per host access"), and where a command word comes
from: the host writes it to CMD, since PXC fetches nothing (10_state.md R21). -/

namespace Sys2Proof.Machine

/-- One step: the oldest pending host event is performed whole (R56). -/
def step (s : State) : Host.Outcome State Fault Refusal :=
  performNext s

/-- `s` with the host's next access a write of the command word to CMD. PXC has no program memory: this stands for the
host's issuing the command (log 10). -/
def State.withFetchWord (s : State) (nbits w : Nat) : State :=
  s.setInbox (wrCmd (tableWord nbits w) :: s.inbox)

end Sys2Proof.Machine
end

