-- ==== Sys2Proof/Machine/System.lean ====
section
/-! DEFINITION. Several PXC instances in one system (60_exceptions.md R172, 10_state.md R42, 00_scope.md R14): each is a whole
`State` of its own behind its own base address, and what one master or the platform does reaches an instance by that
address, or by the wiring of its reset, and by nothing else (log 13). `core` is one instance. -/

namespace Sys2Proof.Machine

/-- One instance: its base address PXC_BASE, by which alone it is known (R172, R57), and its whole state (R42). -/
structure Instance where
  base : Nat
  core : State
deriving DecidableEq, Repr

/-- One thing that happens in the system: a bus access at a platform address (R57), or a reset of the instances whose
places in the list `which` names, together; the others are not reset (R172: "together or apart, as the platform wires
them"). -/
inductive PlatformEvent where
  | read (addr : Nat) (be : BitVec 4)
  | write (addr : Nat) (be : BitVec 4) (v : Word)
  | reset (which : List Nat)
deriving DecidableEq, Repr

/-- What the instance at place `n`, with parameters `c` and base `base`, sees of an event: an access in its own window, at
the window address, or its own reset; `none` where the event is another's. -/
def localEvent (c : Config) (base n : Nat) : PlatformEvent → Option HostEvent
  | .read addr be => (windowAddr c base addr).map (fun a => .read a be)
  | .write addr be v => (windowAddr c base addr).map (fun a => .write a be v)
  | .reset which => if n ∈ which then some .reset else none

/-- The events of the system that reach one instance, in their order. -/
def eventsFor (c : Config) (base n : Nat) (es : List PlatformEvent) : List HostEvent :=
  es.filterMap (localEvent c base n)

/-- One instance takes its part in an event; an event that is another's leaves it as it is. -/
def Instance.perform (e : PlatformEvent) (n : Nat) (i : Instance) : Host.Outcome Instance Fault Refusal :=
  match localEvent i.core.config i.base n e with
  | some ev => andThen (hostEvent ev i.core) (fun s => .next { i with core := s })
  | none => .next i

/-- Every instance takes its part in an event; `n` is the place of the first of them. -/
def deliver (e : PlatformEvent) (n : Nat) : List Instance → Host.Outcome (List Instance) Fault Refusal
  | [] => .next []
  | i :: rest => andThen (i.perform e n) (fun i' => andThen (deliver e (n + 1) rest) (fun rest' => .next (i' :: rest')))

/-- A system: its instances, and the events not yet performed, oldest first. Every interleaving of the masters' accesses is
some list (R60; log 13). It has no other component: no shared memory, signal or interrupt joins the instances (R172). -/
structure System where
  instances : List Instance
  pending : List PlatformEvent
deriving DecidableEq, Repr

/-- The instances of R172 when all have left reset: one for each pair of a base address and parameters, each with its own
unknown table contents (log 4). -/
def System.atReset (ps : List (Nat × Config)) (es : List PlatformEvent) : System where
  instances := ps.zipIdx.map (fun p => ⟨p.1.1, { State.reset with config := p.1.2, stream := p.2 }⟩)
  pending := es

/-- One step of the system: the oldest pending event, performed whole (R56). With none pending it stays as it is. -/
def systemStep (y : System) : Host.Outcome System Fault Refusal :=
  match y.pending with
  | [] => .next y
  | e :: rest => andThen (deliver e 0 y.instances) (fun is => .next ⟨is, rest⟩)

/-- `k` steps of the system. -/
def systemRun : Nat → System → Host.Outcome System Fault Refusal
  | 0, y => .next y
  | k + 1, y => andThen (systemStep y) (systemRun k)

/-- Two instances are apart: their windows have no address in common, since an instance is known by its base address alone
(R172; DEDUCED, log 13), and the free values of their unwritten entries are not the same draws (R42; log 4). -/
abbrev Instance.apart (i j : Instance) : Prop :=
  (i.base + 2 ^ i.core.config.addrBits ≤ j.base ∨ j.base + 2 ^ j.core.config.addrBits ≤ i.base) ∧
    i.core.stream ≠ j.core.stream

/-- The systems the model stands for: any two instances are apart. -/
abbrev System.wf (y : System) : Prop :=
  y.instances.Pairwise Instance.apart

end Sys2Proof.Machine
end

