-- ==== Sys2Proof/Safety.lean ====
section
/-! DEFINITION. The terms claims are stated in: the machine's invariant, illegal words (30_encoding.md R77), and the host
preconditions PXC does not check (41_context.md R105, 70_reset_and_hazards.md R192). -/

namespace Sys2Proof.Machine

/-- PXC is not faulted (00_scope.md R13): the premise of R164 for a command to run. -/
abbrev Running (s : State) : Prop :=
  s.faulted = false

/-- Nothing has been violated since reset: neither PXC's fault nor the model-only one (R168). R197 and U2 make this a
premise of a claim about a run's result. -/
abbrev NoFault (s : State) : Prop :=
  s.faulted = false ∧ s.modelFault = none

/-- `s` on a machine whose CMD_LATENCY is `n` (R6, R196). -/
def State.withLatency (s : State) (n : Option Nat) : State :=
  { s with config := { s.config with cmdLatency := n } }

/-- The two clauses of R77: OP is reserved, or OP is in use and a reserved bit of its format (R71) is 1. The bits of format
S above an NSL_BITS-wide SIDX are reserved too; there are none at the default (log 1). -/
abbrev IllegalWord (c : Config) (w : Word) : Prop :=
  5 ≤ bits w 3 0 ∨ (bits w 3 0 ≤ 1 ∧ bits w 31 4 ≠ 0) ∨ (bits w 3 0 = 2 ∧ bits w 31 7 ≠ 0) ∨
    (bits w 3 0 = 3 ∧ (bits w 15 4 ≠ 0 ∨ 2 ^ c.nslBits ≤ bits w 31 16)) ∨ (bits w 3 0 = 4 ∧ bits w 31 10 ≠ 0)

/-- The forms STATUS can have (R28, R161): no fault, or FAULT = 1 with one of the causes 1 to 6. -/
abbrev StatusForm (w : Word) : Prop :=
  w = 0 ∨ w = statusWord .illegalCmd ∨ w = statusWord .tableRange ∨ w = statusWord .widthZero ∨
    w = statusWord .slicesZero ∨ w = statusWord .sliceIndexRange ∨ w = statusWord .rlClassRange

/-- Entry k of array a of table t exists (R35, R36). -/
abbrev EntryExists (c : Config) (t a k : Nat) : Prop :=
  t < c.numTables ∧ a < Config.numArrays ∧ k < 2 ^ c.idxBits

/-- A row of the register map: offset, register, whether it is RW, and the bits it uses. -/
structure MapRow where
  offset : Nat
  reg : Reg
  rw : Bool
  used : Word
deriving DecidableEq, Repr

/-- The register map of R20, less CMD and the reserved rows, with the widths that are parameters of R6 (SW, WIDTH_BITS,
NSL_BITS, CS_BITS, MAX_PLANES; log 1). At the defaults it is R20's own. -/
def registerMap (c : Config) : List MapRow :=
  [⟨0x004, .RESULT, false, 0xFFFFFFFF⟩,
   ⟨0x008, .STATUS, false, 0x00000F01⟩,
   ⟨0x00C, .CFG, true, 0x00000001⟩,
   ⟨0x010, .S_LL, true, BitVec.ofNat 32 (2 ^ c.sw - 1)⟩,
   ⟨0x014, .S_L, true, BitVec.ofNat 32 (2 ^ c.sw - 1)⟩,
   ⟨0x018, .S_LT, true, BitVec.ofNat 32 (2 ^ c.sw - 1)⟩,
   ⟨0x01C, .S_T, true, BitVec.ofNat 32 (2 ^ c.sw - 1)⟩,
   ⟨0x020, .S_RT, true, BitVec.ofNat 32 (2 ^ c.sw - 1)⟩,
   ⟨0x024, .S_TT, true, BitVec.ofNat 32 (2 ^ c.sw - 1)⟩,
   ⟨0x028, .G_WIDTH, true, BitVec.ofNat 32 (2 ^ c.widthBits - 1)⟩,
   ⟨0x02C, .G_NUMH, true, BitVec.ofNat 32 (2 ^ c.nslBits - 1)⟩,
   ⟨0x030, .G_CSHIFT, true, BitVec.ofNat 32 (2 ^ c.csBits - 1)⟩,
   ⟨0x040, .SC_POS_X, true, 0xFFFFFFFF⟩,
   ⟨0x044, .SC_POS_Y, true, 0xFFFFFFFF⟩,
   ⟨0x048, .SC_DIM_W, true, 0xFFFFFFFF⟩,
   ⟨0x04C, .SC_DIM_H, true, 0xFFFFFFFF⟩,
   ⟨0x050, .SC_QTI, true, BitVec.ofNat 32 (0x7777 % 2 ^ (4 * c.maxPlanes))⟩,
   ⟨0x054, .SC_CTXCNT, true, 0xFFFFFFFF⟩,
   ⟨0x058, .SC_MODE, true, 0x00000003⟩,
   ⟨0x060, .SC_RCT0, true, if c.maxPlanes ≤ 0 then 0 else 0xFFFFFFFF⟩,
   ⟨0x064, .SC_RCT1, true, if c.maxPlanes ≤ 1 then 0 else 0xFFFFFFFF⟩,
   ⟨0x068, .SC_RCT2, true, if c.maxPlanes ≤ 2 then 0 else 0xFFFFFFFF⟩,
   ⟨0x06C, .SC_RCT3, true, if c.maxPlanes ≤ 3 then 0 else 0xFFFFFFFF⟩]

/-- The window addresses that are misaligned (R53), reserved or unmapped (R54): the register gaps, table addresses with
array field 5 to 7, and tables from NUM_TABLES on, which at an ADDR_BITS above 17 takes in all from 0x20000 on. The last
clause is not in R54's list: it is log 1, and empty at the default IDX_BITS = 8. -/
abbrev NoLocation (c : Config) (n : Nat) : Prop :=
  n % 4 ≠ 0 ∨ (0x34 ≤ n ∧ n ≤ 0x3F) ∨ (0x5C ≤ n ∧ n ≤ 0x5F) ∨ (0x70 ≤ n ∧ n ≤ 0xFFFF) ∨
    (0x10000 ≤ n ∧ (5 ≤ n / 0x400 % 8 ∨ c.numTables ≤ (n - 0x10000) / 0x2000 ∨ 2 ^ c.idxBits ≤ n / 4 % 256))

/-- The registers of the SliceContext record (R154). -/
def sliceContextRegs : List Reg :=
  [.SC_POS_X, .SC_POS_Y, .SC_DIM_W, .SC_DIM_H, .SC_QTI, .SC_CTXCNT, .SC_MODE, .SC_RCT0, .SC_RCT1, .SC_RCT2, .SC_RCT3]

/-- What every step keeps, from every state that has it. -/
structure Inv (s : State) : Prop where
  /-- The parameters are in their ranges (R6). -/
  config_wf : s.config.wf
  /-- The table storage keeps its canonical form. -/
  table_canonical : s.qtab.wf
  /-- Only bytes of existing entries are stored (R36, R54). -/
  table_bytes : ∀ c ∈ s.qtab, ∃ t a k j, EntryExists s.config t a k ∧ j < 2 ∧ c.1 = entryAddr t a k + j
  /-- An entry's two bytes are written together (R51). -/
  entry_whole : ∀ t a k, EntryExists s.config t a k →
    (s.qtab.readByte (entryAddr t a k)).isSome = (s.qtab.readByte (entryAddr t a k + 1)).isSome
  /-- An entry holds QW bits (R35). -/
  entry_width : ∀ t a k e, EntryExists s.config t a k → s.qtab.readEntry t a k = some e → e.toNat < 2 ^ s.config.qw
  /-- A register's unused bits are 0 (R20). -/
  unused_zero : ∀ r, s.reg r &&& ~~~(r.mask s.config) = 0
  /-- STATUS has one of its forms (R28, R161). -/
  status_form : StatusForm (s.reg .STATUS)

/-- R192, step 1: every entry of table t has been written since reset. -/
def TableInstalled (s : State) (t : Nat) : Prop :=
  ∀ a k, a < Config.numArrays → k < 2 ^ s.config.idxBits → (qEntry s t a k).isSome

/-- Well-formedness (a) of R105: SKIP(t) implies that every entry of arrays 3 and 4 is 0. -/
def ShortcutSound (s : State) (t : Nat) : Prop :=
  skip s t = some true →
    ∀ k, k < 2 ^ s.config.idxBits → qEntry s t 3 k = some 0 ∧ qEntry s t 4 k = some 0

/-- Well-formedness (b) of R105: every result lies in [0, SC_CTXCNT). The five indices range independently, as the
differences do. -/
def ContextsInRange (s : State) (t : Nat) : Prop :=
  ∀ k0 k1 k2 k3 k4 q0 q1 q2 q3 q4,
    k0 < 2 ^ s.config.idxBits → k1 < 2 ^ s.config.idxBits → k2 < 2 ^ s.config.idxBits →
    k3 < 2 ^ s.config.idxBits → k4 < 2 ^ s.config.idxBits →
    qEntry s t 0 k0 = some q0 → qEntry s t 1 k1 = some q1 → qEntry s t 2 k2 = some q2 →
    qEntry s t 3 k3 = some q3 → qEntry s t 4 k4 = some q4 →
    let r := if skip s t = some true then q0 + q1 + q2 else q0 + q1 + q2 + (q3 + q4)
    0 ≤ r ∧ r < ((s.reg .SC_CTXCNT).toNat : Int)

/-- A well-formed table (R105). -/
def TableWellFormed (s : State) (t : Nat) : Prop :=
  ShortcutSound s t ∧ ContextsInRange s t

end Sys2Proof.Machine
end

