-- ==== Sys2Proof/Certificates/Slice0/Obligations.lean ====
section
/-! DEFINITION. The statements about PXC, from the numbered rules of spec/. A host access to CMD is written out as
`.write 0x0 0xF w`: window address 0, all byte enables set. -/

open Sys2Proof Sys2Proof.Machine

/-! ### Encoding -/

/-- Words written out from R76 and R79 decode to their commands, at the defaults of R6. -/
def Obligations.DecodeSampleWords : Prop :=
  decode Config.default 0x00000000 = .ok .nop ∧ decode Config.default 0x00000001 = .ok .pred ∧
  decode Config.default 0x00000012 = .ok (.ctx 1) ∧ decode Config.default 0x00000072 = .ok (.ctx 7) ∧
  decode Config.default 0x00030003 = .ok (.scoord 3) ∧ decode Config.default 0xFFFF0003 = .ok (.scoord 65535) ∧
  decode Config.default 0x00000194 = .ok (.rlt 25) ∧ decode Config.default 0x000003F4 = .ok (.rlt 63) ∧
  decode Config.default 0x00000082 = .error (.reservedBits 2) ∧ decode Config.default 0x0000000F = .error (.reservedOpcode 15)

/-- Decoding an encoded well-formed command gives it back, from the word and from its bytes (R52, R78, R79), at every width
of SIDX (R6). -/
def Obligations.DecodeEncodeRoundTrip : Prop :=
  ∀ (c : Config) (i : Instr), c.wf → i.wellFormed c = true →
    decode c (encode i) = .ok i ∧ ∀ rest, decodeBytes c (encodeBytes i ++ rest) = .ok (i, rest)

/-- A word that decodes is the encoding of the command it decodes to, and the command is well-formed (R77, R78, R79). At an
NSL_BITS (R6) below 16 'well-formed' bounds SIDX by 2^NSL_BITS, so this says too that the bits above a narrower SIDX are
reserved: that is the model's inference (log 1), not R77 to R79, whose own case is NSL_BITS = 16. -/
def Obligations.DecodedWordIsItsEncoding : Prop :=
  ∀ (c : Config) (w : Word) (i : Instr), decode c w = .ok i → i.wellFormed c = true ∧ encode i = w

/-- R76: a word encodes a mnemonic exactly when it matches the mnemonic's row under its mask, and no two rows overlap. R76's
masks are those of a 16-bit SIDX, the default NSL_BITS. -/
def Obligations.DecodeAgreesWithOpcodeMap : Prop :=
  (∀ (c : Config) (w : Word), c.nslBits = 16 → ∀ row ∈ opcodeRows,
    (∃ i, decode c w = .ok i ∧ i.mnemonic = row.mnemonic) ↔ w &&& row.mask = row.pattern) ∧
  (∀ w : Word, ∀ row ∈ opcodeRows, ∀ row' ∈ opcodeRows,
    w &&& row.mask = row.pattern → w &&& row'.mask = row'.pattern → row = row')

/-- R77: the decoder refuses exactly the words of its two clauses, and such a command changes nothing but STATUS. That the
bits above an SIDX of fewer than 16 bits are reserved is the model's inference (log 1); R77's own case is NSL_BITS = 16. -/
def Obligations.IllegalWordsFaultAndChangeOnlyStatus : Prop :=
  (∀ (c : Config) (w : Word), (∃ e, decode c w = .error e) ↔ IllegalWord c w) ∧
  (∀ (s : State) (w : Word) (rest : List HostEvent), IllegalWord s.config w → s.faulted = false →
    s.inbox = .write 0x0 0xF w :: rest → step s = .next ((s.setInbox rest).setReg .STATUS 0x00000101))

/-- R52: byte j of a word holds bits [8j+7 : 8j], and the four bytes are the word. -/
def Obligations.WordBytesAreLittleEndian : Prop :=
  ∀ w : Word, (∀ j, j < 4 → leByte w j = w.extractLsb' (8 * j) 8) ∧
    wordOfBytes (leByte w 0) (leByte w 1) (leByte w 2) (leByte w 3) = w

/-! ### The step -/

/-- R151, R164: a step whose next access is a write of w to CMD runs the decoded command, raises ILLEGAL_CMD, or, when
faulted, ignores the word. -/
def Obligations.StepRunsTheDecodedCommand : Prop :=
  ∀ (s : State) (w : Word) (rest : List HostEvent), s.inbox = .write 0x0 0xF w :: rest →
    (s.faulted = true → step s = .next (s.setInbox rest)) ∧
    (s.faulted = false → ∀ i, decode s.config w = .ok i → step s = exec i (s.setInbox rest)) ∧
    (s.faulted = false → ∀ e, decode s.config w = .error e → step s = raiseFault .illegalCmd (s.setInbox rest))

/-- A step after `withFetchWord` runs exactly the word's command (log 10). -/
def Obligations.FetchWordRunsNext : Prop :=
  ∀ (s : State) (nbits w : Nat) (i : Instr), s.faulted = false →
    (decode s.config (tableWord nbits w) = .ok i → step (s.withFetchWord nbits w) = exec i s) ∧
    (s.config.nslBits = 16 → decodeTableWord nbits w = some i → step (s.withFetchWord nbits w) = exec i s)

/-- R56, R59: accesses are performed one at a time, whole, in the order received. A step with `e` pending first performs
`e` on the state the earlier accesses left, a run over the pending events `es` is the left fold of `hostEvent` over them,
and it leaves the later events pending, untouched. (The list of pending events is the model's field, log 5.) -/
def Obligations.EventsArePerformedInOrder : Prop :=
  (∀ (s : State) (e : HostEvent) (rest : List HostEvent), s.inbox = e :: rest →
    step s = hostEvent e (s.setInbox rest)) ∧
  (∀ (es rest : List HostEvent) (s : State), s.inbox = es ++ rest →
    Sys2Proof.core.run es.length s = performAll es (s.setInbox rest) ∧
    ∃ s', performAll es (s.setInbox rest) = .next s' ∧ s'.inbox = rest)

/-- No step stops: every step and every command answers a next state, in every state. (An unwritten table entry is a free
value, log 2; a PXC fault is a next state, R162.) -/
def Obligations.EveryStepGoesOn : Prop :=
  (∀ s : State, ∃ s', step s = .next s') ∧ (∀ (i : Instr) (s : State), ∃ s', exec i s = .next s')

/-- R160, R168, R192: the model-only fault UNINIT_TABLE appears in one way: an unfaulted PXC runs a CTX on an existing table
that has an unwritten entry. -/
def Obligations.OnlyCtxOnUnwrittenTableRaisesTheModelFault : Prop :=
  ∀ s s' : State, s.config.wf → s.modelFault = none → step s = .next s' → s'.modelFault ≠ none →
    s'.modelFault = some .uninitTable ∧ s'.reg .STATUS = s.reg .STATUS ∧
    ∃ w t rest, s.inbox = .write 0x0 0xF w :: rest ∧ s.faulted = false ∧
      decode s.config w = .ok (.ctx t) ∧ t < s.config.numTables ∧ ¬ TableInstalled s t

/-- R168, R191, 93_implementation_defined.md U2: the model-only fault is sticky: every event but a reset keeps it, and a
reset discards it. (That PXC runs its later commands as the hardware does is log 2.) -/
def Obligations.OnlyResetDiscardsTheModelFault : Prop :=
  ∀ (s s' : State) (f : Fault), s.modelFault = some f → step s = .next s' →
    (s'.modelFault = some f ∧ ∀ rest, s.inbox ≠ .reset :: rest) ∨
    (∃ rest, s.inbox = .reset :: rest ∧ s'.modelFault = none ∧ s'.faulted = false)

/-! ### What commands write -/

/-- R81, R151: each command's completion writes RESULT alone (NOP nothing), and its faults, with the causes R163 gives it,
write STATUS alone. A CTX that reads an unwritten entry writes RESULT alone of PXC's state, and the model's own record of
the fault and of the draws (R168; log 2). -/
def Obligations.CommandsWriteResultOrStatus : Prop :=
  ∀ (s s' : State),
    (exec .nop s = .next s' → s' = s) ∧
    (exec .pred s = .next s' → ∃ v, s' = s.setReg .RESULT v) ∧
    (∀ t, exec (.ctx t) s = .next s' → (∃ v, s' = s.setReg .RESULT v) ∨ s' = s.setReg .STATUS 0x00000201 ∨
      ∃ v, s' = ((s.setReg .RESULT v).countDraw).latch .uninitTable) ∧
    (∀ i, exec (.scoord i) s = .next s' → (∃ v, s' = s.setReg .RESULT v) ∨ s' = s.setReg .STATUS 0x00000301 ∨
      s' = s.setReg .STATUS 0x00000401 ∨ s' = s.setReg .STATUS 0x00000501) ∧
    (∀ c, exec (.rlt c) s = .next s' → (∃ v, s' = s.setReg .RESULT v) ∨ s' = s.setReg .STATUS 0x00000601)

/-- The frame of every command (R81, R103, R162): registers other than RESULT and STATUS, one of these two, every byte of
table storage, and the rest of the state are unchanged. No command stores to memory. The model's own record of UNINIT_TABLE
and of the draws changes only in a CTX (R168; log 2). -/
def Obligations.CommandFrame : Prop :=
  ∀ (i : Instr) (s s' : State), exec i s = .next s' →
    (∀ r, r ≠ .RESULT → r ≠ .STATUS → s'.reg r = s.reg r) ∧
    (s'.reg .RESULT = s.reg .RESULT ∨ s'.reg .STATUS = s.reg .STATUS) ∧
    (∀ a, s'.qtab.readByte a = s.qtab.readByte a) ∧
    s'.config = s.config ∧ s'.inbox = s.inbox ∧ s'.replies = s.replies ∧ s'.stream = s.stream ∧
    ((s'.modelFault = s.modelFault ∧ s'.draws = s.draws) ∨
      (∃ t, i = .ctx t) ∧ s'.modelFault = some .uninitTable ∧ s'.reg .STATUS = s.reg .STATUS)

/-- R150: NOP leaves every piece of state unchanged, faulted or not; with a reserved bit set it is ILLEGAL_CMD. -/
def Obligations.NopLeavesEverything : Prop :=
  (∀ s, exec .nop s = .next s) ∧ encode .nop = 0x00000000 ∧
  (∀ (s : State) (rest : List HostEvent), s.inbox = .write 0x0 0xF 0x00000000 :: rest →
    step s = .next (s.setInbox rest)) ∧
  (∀ (s : State) (w : Word) (rest : List HostEvent), w.extractLsb' 0 4 = 0 → w.extractLsb' 4 28 ≠ 0 →
    s.faulted = false → s.inbox = .write 0x0 0xF w :: rest →
    step s = .next ((s.setInbox rest).setReg .STATUS 0x00000101))

/-! ### PRED -/

/-- R90: PRED completes with the median of L, the exact L + T - LT, and T: one of the three, with at least two of them not
above it and two not below it. At SW = 32 the operands are the registers read as signed words. -/
def Obligations.PredWritesTheMedian : Prop :=
  ∀ s : State,
    let L := sample s .S_L
    let T := sample s .S_T
    let LT := sample s .S_LT
    let G := L + T - LT
    (∃ P : Int, exec .pred s = .next (s.setReg .RESULT (BitVec.ofInt 32 P)) ∧ (P = L ∨ P = G ∨ P = T) ∧
      2 ≤ [L, G, T].countP (fun x => decide (x ≤ P)) ∧ 2 ≤ [L, G, T].countP (fun x => decide (P ≤ x))) ∧
    (s.config.sw = 32 →
      L = (s.reg .S_L).toInt ∧ T = (s.reg .S_T).toInt ∧ LT = (s.reg .S_LT).toInt)

/-- R91: the prediction is L + T - LT clamped between L and T, for all integers; RESULT, read as a signed word, is exactly
it and lies between them; predict(0, 10, 20) is 0 (90_conflicts.md C2). -/
def Obligations.PredictionIsTheClampedGradient : Prop :=
  (∀ s : State, s.config.wf →
    let L := sample s .S_L
    let T := sample s .S_T
    let G := L + T - sample s .S_LT
    ∃ v : Word, exec .pred s = .next (s.setReg .RESULT v) ∧ v.toInt = min (max G (min L T)) (max L T) ∧
      min L T ≤ v.toInt ∧ v.toInt ≤ max L T) ∧
  (∀ l t lt : Int, median3 l (l + t - lt) t = min (max (l + t - lt) (min l t)) (max l t)) ∧ predict 0 10 20 = 0

/-- R92: two PREDs with equal operand registers give equal RESULTs. -/
def Obligations.PredDependsOnlyOnItsSamples : Prop :=
  ∀ s u : State, s.config = u.config → s.reg .S_L = u.reg .S_L → s.reg .S_T = u.reg .S_T →
    s.reg .S_LT = u.reg .S_LT →
    ∃ v, exec .pred s = .next (s.setReg .RESULT v) ∧ exec .pred u = .next (u.setReg .RESULT v)

/-! ### CTX -/

/-- R100, R101: with both probe entries 0, CTX completes with the sum of the three first-order lookups; no other entry of
arrays 3 and 4 need hold a value. -/
def Obligations.CtxShortcutWritesTheBase : Prop :=
  ∀ (s : State) (t : Nat) (q0 q1 q2 : Int), t < s.config.numTables →
    qEntry s t 0 (maskIndex s.config (sample s .S_L - sample s .S_LT)) = some q0 →
    qEntry s t 1 (maskIndex s.config (sample s .S_LT - sample s .S_T)) = some q1 →
    qEntry s t 2 (maskIndex s.config (sample s .S_T - sample s .S_RT)) = some q2 →
    qEntry s t 3 s.config.skipProbeIndex = some 0 → qEntry s t 4 s.config.skipProbeIndex = some 0 →
    exec (.ctx t) s = .next (s.setReg .RESULT (BitVec.ofInt 32 (q0 + q1 + q2)))

/-- R100, R101: with a probe entry not 0, CTX completes with the sum of all five lookups. -/
def Obligations.CtxFullSumAddsSecondOrder : Prop :=
  ∀ (s : State) (t : Nat) (q0 q1 q2 q3 q4 p3 p4 : Int), t < s.config.numTables →
    qEntry s t 0 (maskIndex s.config (sample s .S_L - sample s .S_LT)) = some q0 →
    qEntry s t 1 (maskIndex s.config (sample s .S_LT - sample s .S_T)) = some q1 →
    qEntry s t 2 (maskIndex s.config (sample s .S_T - sample s .S_RT)) = some q2 →
    qEntry s t 3 (maskIndex s.config (sample s .S_LL - sample s .S_L)) = some q3 →
    qEntry s t 4 (maskIndex s.config (sample s .S_TT - sample s .S_T)) = some q4 →
    qEntry s t 3 s.config.skipProbeIndex = some p3 → qEntry s t 4 s.config.skipProbeIndex = some p4 →
    ¬ (p3 = 0 ∧ p4 = 0) →
    exec (.ctx t) s = .next (s.setReg .RESULT (BitVec.ofInt 32 (q0 + q1 + q2 + q3 + q4)))

/-- R100, R161: CTX of a table that does not exist faults with TABLE_RANGE and changes nothing but STATUS. -/
def Obligations.CtxBeyondTheTablesFaults : Prop :=
  ∀ (s : State) (t : Nat), s.config.numTables ≤ t →
    exec (.ctx t) s = .next (s.setReg .STATUS 0x00000201)

/-- R168: CTX raises UNINIT_TABLE exactly when an entry it reads has not been written since reset: a first-order entry
(R100), a probe entry (R101, R107), or, when SKIP is false, a second-order entry. It goes on with some RESULT either way,
and writes no other register. That both probe entries are always read, even beside one that is not 0, and that PXC goes on
after the fault, are the model's inference (log 2) from R107, R192 and R168. -/
def Obligations.CtxRaisesUninitExactlyOnUnwrittenEntries : Prop :=
  ∀ (s : State) (t : Nat), t < s.config.numTables →
    let unwritten : Prop :=
      qEntry s t 0 (maskIndex s.config (sample s .S_L - sample s .S_LT)) = none ∨
      qEntry s t 1 (maskIndex s.config (sample s .S_LT - sample s .S_T)) = none ∨
      qEntry s t 2 (maskIndex s.config (sample s .S_T - sample s .S_RT)) = none ∨
      qEntry s t 3 s.config.skipProbeIndex = none ∨ qEntry s t 4 s.config.skipProbeIndex = none ∨
      (¬ (qEntry s t 3 s.config.skipProbeIndex = some 0 ∧ qEntry s t 4 s.config.skipProbeIndex = some 0) ∧
        (qEntry s t 3 (maskIndex s.config (sample s .S_LL - sample s .S_L)) = none ∨
         qEntry s t 4 (maskIndex s.config (sample s .S_TT - sample s .S_T)) = none))
    (unwritten → ∃ v, exec (.ctx t) s = .next (((s.setReg .RESULT v).countDraw).latch .uninitTable)) ∧
    (¬ unwritten → ∃ v, exec (.ctx t) s = .next (s.setReg .RESULT v))

/-- R192, R37: on an installed table CTX completes, for every neighbourhood. -/
def Obligations.CtxCompletesOnInstalledTable : Prop :=
  ∀ (s : State) (t : Nat), s.config.wf → t < s.config.numTables → TableInstalled s t →
    ∃ v, exec (.ctx t) s = .next (s.setReg .RESULT v)

/-- R104: the result lies in [-5·2^15, 5·2^15 - 5]. R104 says it of tables that hold values. That it also holds where an
entry the CTX reads is unwritten is the model's: such a CTX goes on (log 2; R168, R37) with the sum of QW-bit free values
(log 4), one of the values U2 calls "some sum of unspecified values"; U2 gives a claim about a CTX result the premise that
the table was written, and this clause does without it. -/
def Obligations.CtxResultRange : Prop :=
  ∀ (s s' : State) (t : Nat), s.config.wf → t < s.config.numTables → exec (.ctx t) s = .next s' →
    -163840 ≤ (s'.reg .RESULT).toInt ∧ (s'.reg .RESULT).toInt ≤ 163835

/-- R106: two tables that agree on arrays 0, 1 and 2 and both skip are interchangeable, whatever arrays 3 and 4 hold
elsewhere: in every state, so for every neighbourhood, a CTX of one writes v to RESULT and nothing else exactly when a CTX
of the other does; and if arrays 0, 1 and 2 are written, both do. Nothing is said of a CTX on an unwritten entry (R168). -/
def Obligations.ShortcutTablesAreInterchangeable : Prop :=
  ∀ (s : State) (t u : Nat), t < s.config.numTables → u < s.config.numTables →
    (∀ a k, a < 3 → k < 2 ^ s.config.idxBits → qEntry s t a k = qEntry s u a k) →
    skip s t = some true → skip s u = some true →
    (∀ v, exec (.ctx t) s = .next (s.setReg .RESULT v) ↔ exec (.ctx u) s = .next (s.setReg .RESULT v)) ∧
    ((∀ a k, a < 3 → k < 2 ^ s.config.idxBits → (qEntry s t a k).isSome) →
      ∃ v, exec (.ctx t) s = .next (s.setReg .RESULT v) ∧ exec (.ctx u) s = .next (s.setReg .RESULT v))

/-- R107: a CTX result depends only on the samples and the entries it reads. -/
def Obligations.CtxDependsOnlyOnWhatItReads : Prop :=
  ∀ (s u : State) (t : Nat) (v : Word), s.config = u.config → t < s.config.numTables →
    (∀ r ∈ [Reg.S_LL, .S_L, .S_LT, .S_T, .S_RT, .S_TT], s.reg r = u.reg r) →
    (∀ a, a < 3 → qEntry s t a (maskIndex s.config (difference s a)) =
      qEntry u t a (maskIndex s.config (difference s a))) →
    (∀ a, a = 3 ∨ a = 4 → qEntry s t a s.config.skipProbeIndex = qEntry u t a s.config.skipProbeIndex) →
    (skip s t = some false → ∀ a, a = 3 ∨ a = 4 → qEntry s t a (maskIndex s.config (difference s a)) =
      qEntry u t a (maskIndex s.config (difference s a))) →
    exec (.ctx t) s = .next (s.setReg .RESULT v) → exec (.ctx t) u = .next (u.setReg .RESULT v)

/-- R105 (a), R101: on an installed table whose shortcut is sound, the result is the full five-term sum for every
neighbourhood, skipped or not. -/
def Obligations.SoundShortcutGivesTheFullSum : Prop :=
  ∀ (s : State) (t : Nat), s.config.wf → t < s.config.numTables → TableInstalled s t → ShortcutSound s t →
    ∃ q0 q1 q2 q3 q4 : Int,
      qEntry s t 0 (maskIndex s.config (sample s .S_L - sample s .S_LT)) = some q0 ∧
      qEntry s t 1 (maskIndex s.config (sample s .S_LT - sample s .S_T)) = some q1 ∧
      qEntry s t 2 (maskIndex s.config (sample s .S_T - sample s .S_RT)) = some q2 ∧
      qEntry s t 3 (maskIndex s.config (sample s .S_LL - sample s .S_L)) = some q3 ∧
      qEntry s t 4 (maskIndex s.config (sample s .S_TT - sample s .S_T)) = some q4 ∧
      exec (.ctx t) s = .next (s.setReg .RESULT (BitVec.ofInt 32 (q0 + q1 + q2 + q3 + q4)))

/-- R105 (b), R104: on an installed well-formed table every context index lies in [0, SC_CTXCNT). -/
def Obligations.WellFormedTableKeepsContextsInRange : Prop :=
  ∀ (s : State) (t : Nat), s.config.wf → t < s.config.numTables → TableInstalled s t → TableWellFormed s t →
    ∃ v, exec (.ctx t) s = .next (s.setReg .RESULT v) ∧ 0 ≤ v.toInt ∧ v.toNat < (s.reg .SC_CTXCNT).toNat

/-- R38, R194: SKIP(t) follows a write to either probe entry at once. -/
def Obligations.SkipFollowsProbeWrites : Prop :=
  ∀ (s : State) (t : Nat) (v : Word) (q : Int) (rest : List HostEvent), s.config.wf → t < s.config.numTables →
    (s.inbox = .write (0x10000 + t * 0x2000 + 3 * 0x400 + s.config.skipProbeIndex * 4) 0xF v :: rest →
      qEntry s t 4 s.config.skipProbeIndex = some q →
      ∃ s', step s = .next s' ∧ (skip s' t = some true ↔ v.toNat % 2 ^ s.config.qw = 0 ∧ q = 0) ∧
        (skip s' t = some false ↔ ¬ (v.toNat % 2 ^ s.config.qw = 0 ∧ q = 0))) ∧
    (s.inbox = .write (0x10000 + t * 0x2000 + 4 * 0x400 + s.config.skipProbeIndex * 4) 0xF v :: rest →
      qEntry s t 3 s.config.skipProbeIndex = some q →
      ∃ s', step s = .next s' ∧ (skip s' t = some true ↔ v.toNat % 2 ^ s.config.qw = 0 ∧ q = 0) ∧
        (skip s' t = some false ↔ ¬ (v.toNat % 2 ^ s.config.qw = 0 ∧ q = 0)))

/-! ### SCOORD -/

/-- R120, R121: with the preconditions met and GEOM_LEGACY = 0, SCOORD completes with the current algorithm's boundary. At
the defaults WIDTH_BITS, NSL_BITS and CS_BITS are R120's 32, 16 and 3; the reading of the registers at other widths is
log 1. -/
def Obligations.ScoordCurrentAlgorithm : Prop :=
  ∀ (s : State) (i : Nat),
    let width := (s.reg .G_WIDTH).toNat % 2 ^ s.config.widthBits
    let N := (s.reg .G_NUMH).toNat % 2 ^ s.config.nslBits
    let mpw := 2 ^ ((s.reg .G_CSHIFT).toNat % 2 ^ s.config.csBits)
    let awidth := mpw * ((width + mpw - 1) / mpw)
    let b := (2 * awidth * i + N * mpw) / (2 * N * mpw) * mpw
    (s.reg .CFG).toNat % 2 = 0 → 0 < width → 0 < N → i ≤ N →
      exec (.scoord i) s = .next (s.setReg .RESULT (BitVec.ofNat 32 (if b = awidth then width else b)))

/-- R120, R123: with the preconditions met and GEOM_LEGACY = 1, SCOORD completes with floor(width * i / N). At the
defaults WIDTH_BITS and NSL_BITS are R120's 32 and 16; the reading of the registers at other widths is log 1. -/
def Obligations.ScoordLegacyAlgorithm : Prop :=
  ∀ (s : State) (i : Nat),
    let width := (s.reg .G_WIDTH).toNat % 2 ^ s.config.widthBits
    let N := (s.reg .G_NUMH).toNat % 2 ^ s.config.nslBits
    (s.reg .CFG).toNat % 2 = 1 → 0 < width → 0 < N → i ≤ N →
      exec (.scoord i) s = .next (s.setReg .RESULT (BitVec.ofNat 32 (width * i / N)))

/-- R122: the three precondition faults, the first that applies in this order, whichever algorithm is selected; RESULT is
unchanged. -/
def Obligations.ScoordPreconditionFaults : Prop :=
  ∀ (s : State) (i : Nat),
    (width s = 0 → exec (.scoord i) s = .next (s.setReg .STATUS 0x00000301)) ∧
    (width s ≠ 0 → numHSlices s = 0 → exec (.scoord i) s = .next (s.setReg .STATUS 0x00000401)) ∧
    (width s ≠ 0 → numHSlices s ≠ 0 → numHSlices s < i → exec (.scoord i) s = .next (s.setReg .STATUS 0x00000501))

/-- R124: the current algorithm's results f(0), …, f(N) start at 0, end at width, do not decrease, stay within width, and
are multiples of mpw or equal width. -/
def Obligations.CurrentBoundaryLaws : Prop :=
  ∀ s : State, geomLegacy s = false → 0 < width s → 0 < numHSlices s →
    ∃ f : Nat → Nat,
      (∀ i, i ≤ numHSlices s → exec (.scoord i) s = .next (s.setReg .RESULT (BitVec.ofNat 32 (f i)))) ∧
      f 0 = 0 ∧ f (numHSlices s) = width s ∧
      (∀ i j, i ≤ j → j ≤ numHSlices s → f i ≤ f j) ∧
      (∀ i, i ≤ numHSlices s → f i ≤ width s ∧ f i < 2 ^ 32 ∧ (2 ^ chromaShift s ∣ f i ∨ f i = width s))

/-- R126: the legacy algorithm's results start at 0, end at width, do not decrease and stay within width. -/
def Obligations.LegacyBoundaryLaws : Prop :=
  ∀ s : State, geomLegacy s = true → 0 < width s → 0 < numHSlices s →
    ∃ f : Nat → Nat,
      (∀ i, i ≤ numHSlices s → exec (.scoord i) s = .next (s.setReg .RESULT (BitVec.ofNat 32 (f i)))) ∧
      f 0 = 0 ∧ f (numHSlices s) = width s ∧
      (∀ i j, i ≤ j → j ≤ numHSlices s → f i ≤ f j) ∧ (∀ i, i ≤ numHSlices s → f i ≤ width s ∧ f i < 2 ^ 32)

/-- R128: under either algorithm the ranges between successive results tile the plane: every column belongs to exactly one
slice. -/
def Obligations.SlicesPartitionThePlane : Prop :=
  ∀ s : State, 0 < width s → 0 < numHSlices s →
    ∃ f : Nat → Nat,
      (∀ i, i ≤ numHSlices s → f i < 2 ^ 32 ∧
        exec (.scoord i) s = .next (s.setReg .RESULT (BitVec.ofNat 32 (f i)))) ∧
      f 0 = 0 ∧ f (numHSlices s) = width s ∧
      ∀ x, x < width s → ∃! j, j < numHSlices s ∧ f j ≤ x ∧ x < f (j + 1)

/-- R125: interior boundaries of the current algorithm are multiples of mpw when width is one or when awidth/mpw > N/2,
and not in general: for width 3, cs 1, N 8 the boundary f(6) is 3. -/
def Obligations.InteriorBoundariesAreAligned : Prop :=
  (∀ (s : State) (i : Nat), geomLegacy s = false → 0 < width s → i < numHSlices s →
    (2 ^ chromaShift s ∣ width s ∨ numHSlices s < 2 * ((width s + 2 ^ chromaShift s - 1) / 2 ^ chromaShift s)) →
    ∃ b, exec (.scoord i) s = .next (s.setReg .RESULT (BitVec.ofNat 32 b)) ∧ b < 2 ^ 32 ∧ 2 ^ chromaShift s ∣ b) ∧
  (∀ s : State, geomLegacy s = false → width s = 3 → numHSlices s = 8 → chromaShift s = 1 →
    exec (.scoord 6) s = .next (s.setReg .RESULT 3))

/-- R127, at its own widths (the defaults): the intermediates fit 50 and 48 unsigned bits, and the 50-bit datapath computes both algorithms exactly. -/
def Obligations.FiftyBitDatapathIsExact : Prop :=
  ∀ w n cs i : Nat, w < 2 ^ 32 → n < 2 ^ 16 → cs < 8 → i ≤ n →
    2 * alignedWidth w cs * i + n * 2 ^ cs < 2 ^ 50 ∧ w * i < 2 ^ 48 ∧
    (currentBoundary50 (BitVec.ofNat 50 w) (BitVec.ofNat 50 n) (BitVec.ofNat 50 cs) (BitVec.ofNat 50 i)).toNat =
      currentBoundary w n cs i ∧
    (legacyBoundary50 (BitVec.ofNat 50 w) (BitVec.ofNat 50 n) (BitVec.ofNat 50 i)).toNat = legacyBoundary w n i

/-! ### RLT -/

/-- R140, R141: RLT completes with RESULT = RL(c), by the closed form R140 gives for its table. RL(27) to RL(39) are the
spec's own derivation (R140), not the source's. -/
def Obligations.RltReadsTheRom : Prop :=
  ∀ (s : State) (c : Nat),
    (c ≤ 15 → exec (.rlt c) s = .next (s.setReg .RESULT (BitVec.ofNat 32 (c / 4)))) ∧
    (16 ≤ c → c ≤ 23 → exec (.rlt c) s = .next (s.setReg .RESULT (BitVec.ofNat 32 (4 + (c - 16) / 2)))) ∧
    (24 ≤ c → c ≤ 40 → exec (.rlt c) s = .next (s.setReg .RESULT (BitVec.ofNat 32 (c - 16))))

/-- R141: a class above 40 faults with RL_CLASS_RANGE and changes nothing but STATUS. -/
def Obligations.RltBeyondTheRomFaults : Prop :=
  ∀ (s : State) (c : Nat), 40 < c → exec (.rlt c) s = .next (s.setReg .STATUS 0x00000601)

/-- R81, R129, R142: SCOORD's outcome depends only on its index and the four registers it reads (and the parameters, which
are fixed), RLT's only on its class. -/
def Obligations.ScoordAndRltDependOnlyOnOperands : Prop :=
  (∀ (s u : State) (i : Nat), s.config = u.config → s.reg .G_WIDTH = u.reg .G_WIDTH → s.reg .G_NUMH = u.reg .G_NUMH →
    s.reg .G_CSHIFT = u.reg .G_CSHIFT → s.reg .CFG = u.reg .CFG →
    ∃ r v, (r = .RESULT ∨ r = .STATUS) ∧ exec (.scoord i) s = .next (s.setReg r v) ∧
      exec (.scoord i) u = .next (u.setReg r v)) ∧
  (∀ (s u : State) (c : Nat), ∃ r v, (r = .RESULT ∨ r = .STATUS) ∧ exec (.rlt c) s = .next (s.setReg r v) ∧
    exec (.rlt c) u = .next (u.setReg r v))

/-! ### Faults -/

/-- R162: raising a fault writes (c << 8) | 1 to STATUS and nothing else. -/
def Obligations.FaultEntryWritesStatusOnly : Prop :=
  ∀ (c : FaultCause) (s : State), ∃ s', raiseFault c s = .next s' ∧
    s'.reg .STATUS = (BitVec.ofNat 32 c.code <<< 8) ||| 1 ∧ s'.faulted = true ∧ s'.cause = c.code ∧
    (∀ r, r ≠ .STATUS → s'.reg r = s.reg r) ∧ (∀ a, s'.qtab.readByte a = s.qtab.readByte a) ∧
    s'.config = s.config ∧ s'.inbox = s.inbox ∧ s'.replies = s.replies ∧ s'.draws = s.draws ∧
    s'.stream = s.stream ∧ s'.modelFault = s.modelFault

/-- R164, R165, R28: while faulted, no event but a reset changes STATUS or RESULT, so the first cause stays. -/
def Obligations.OnlyResetLeavesTheFaultedState : Prop :=
  ∀ s s' : State, s.faulted = true → step s = .next s' →
    (s'.reg .STATUS = s.reg .STATUS ∧ s'.reg .RESULT = s.reg .RESULT) ∨
    ∃ rest, s.inbox = .reset :: rest ∧ s'.reg .STATUS = 0 ∧ s'.faulted = false

/-- R164: the fault stays for the rest of a run in which the host does not reset PXC, and such a run never stops. -/
def Obligations.FaultStaysThroughARun : Prop :=
  ∀ (k : Nat) (s : State), s.faulted = true → .reset ∉ s.inbox →
    ∃ s', Sys2Proof.core.run k s = .next s' ∧ s'.reg .STATUS = s.reg .STATUS ∧ s'.reg .RESULT = s.reg .RESULT

/-! ### Bus accesses -/

/-- R20, R152: a write to an RW register sets the bits the register uses and nothing else, faulted or not; a write to a
read-only register changes nothing. At the defaults of R6 the used bits are R20's; at other widths that the bits above a
register's width read as 0 and ignore writes is the model's inference (log 1). -/
def Obligations.RegisterWriteSetsTheUsedBits : Prop :=
  (∀ (s : State) (v : Word) (rest : List HostEvent), s.config.wf → ∀ row ∈ registerMap s.config,
    s.inbox = .write row.offset 0xF v :: rest →
    (row.rw = true → step s = .next ((s.setInbox rest).setReg row.reg (v &&& row.used))) ∧
    (row.rw = false → step s = .next (s.setInbox rest))) ∧
  (registerMap Config.default).map (·.used) =
    [0xFFFFFFFF, 0x00000F01, 0x00000001, 0xFFFFFFFF, 0xFFFFFFFF, 0xFFFFFFFF, 0xFFFFFFFF, 0xFFFFFFFF, 0xFFFFFFFF,
     0xFFFFFFFF, 0x0000FFFF, 0x00000007, 0xFFFFFFFF, 0xFFFFFFFF, 0xFFFFFFFF, 0xFFFFFFFF, 0x00007777, 0xFFFFFFFF,
     0x00000003, 0xFFFFFFFF, 0xFFFFFFFF, 0xFFFFFFFF, 0xFFFFFFFF]

/-- R20, R26, R153: a read of a register hands back its value with unused bits 0, a read of CMD hands back 0, whatever the
byte enables and faulted or not. That the bits above a width of R6 other than the default read as 0 is the model's
inference (log 1). -/
def Obligations.RegisterReadReturnsTheUsedBits : Prop :=
  ∀ (s : State) (be : BitVec 4) (rest : List HostEvent), s.config.wf →
    (∀ row ∈ registerMap s.config, s.inbox = .read row.offset be :: rest →
      step s = .next ((s.setInbox rest).reply (s.reg row.reg &&& row.used))) ∧
    (s.inbox = .read 0x0 be :: rest → step s = .next ((s.setInbox rest).reply 0))

/-- R51, R53, R54: a write with a clear byte enable, or to a misaligned, reserved or unmapped address of the window, changes
nothing; a read of such an address hands back 0. None faults. `NoLocation`'s last clause (an index at or above 2^IDX_BITS)
is not in R54's list: it is the model's inference (log 1), empty at the default. -/
def Obligations.AccessesThatReachNothing : Prop :=
  ∀ (s : State) (addr : Nat) (be : BitVec 4) (v : Word) (rest : List HostEvent),
    (be ≠ 0xF → s.inbox = .write addr be v :: rest → step s = .next (s.setInbox rest)) ∧
    (NoLocation s.config addr → s.inbox = .write addr be v :: rest → step s = .next (s.setInbox rest)) ∧
    (NoLocation s.config addr → addr < 2 ^ s.config.addrBits → s.inbox = .read addr be :: rest →
      step s = .next ((s.setInbox rest).reply 0))

/-- R55: no read of the window has a side effect: it hands back one word, and registers, table storage and parameters are unchanged. -/
def Obligations.ReadsHaveNoSideEffect : Prop :=
  ∀ (s : State) (addr : Nat) (be : BitVec 4) (rest : List HostEvent), addr < 2 ^ s.config.addrBits →
    s.inbox = .read addr be :: rest →
    ∃ s' w, step s = .next s' ∧ s'.replies = w :: s.replies ∧ s'.inbox = rest ∧ (∀ r, s'.reg r = s.reg r) ∧
      (∀ a, s'.qtab.readByte a = s.qtab.readByte a) ∧ s'.config = s.config ∧ s'.modelFault = s.modelFault

/-- R55: a write to anything but CMD is idempotent. -/
def Obligations.NonCommandWritesAreIdempotent : Prop :=
  ∀ (s s' : State) (addr : Nat) (be : BitVec 4) (v : Word), addr ≠ 0x0 →
    hostEvent (.write addr be v) s = .next s' → hostEvent (.write addr be v) s' = .next s'

/-- R36, R52: a write of v to a table entry's address sets the entry to the low QW bits of v, stored little-endian, and
changes no other byte of table storage and no register, faulted or not. -/
def Obligations.TableWriteSetsTheEntry : Prop :=
  ∀ (s : State) (t a k : Nat) (v : Word) (rest : List HostEvent), s.config.wf → EntryExists s.config t a k →
    s.inbox = .write (0x10000 + t * 0x2000 + a * 0x400 + k * 4) 0xF v :: rest →
    ∃ s', step s = .next s' ∧ qEntry s' t a k = some (sextN s.config.qw v.toNat) ∧
      (s.config.qw = 16 → qEntry s' t a k = some (v.extractLsb' 0 16).toInt ∧
        s'.qtab.readByte (entryAddr t a k) = some (v.extractLsb' 0 8) ∧
        s'.qtab.readByte (entryAddr t a k + 1) = some (v.extractLsb' 8 8)) ∧
      (∀ x, x ≠ entryAddr t a k → x ≠ entryAddr t a k + 1 → s'.qtab.readByte x = s.qtab.readByte x) ∧
      (∀ r, s'.reg r = s.reg r) ∧ s'.config = s.config ∧ s'.inbox = rest ∧ s'.replies = s.replies ∧
      s'.draws = s.draws ∧ s'.stream = s.stream ∧ s'.modelFault = s.modelFault

/-- R36, R37, R153, U9: a read of a written entry hands back the entry sign-extended; a read of an unwritten one hands back
some sign-extended 16-bit value (the model's free value, log 4). -/
def Obligations.TableReadReturnsTheSignedEntry : Prop :=
  ∀ (s : State) (t a k : Nat) (be : BitVec 4) (rest : List HostEvent), s.config.wf → EntryExists s.config t a k →
    s.inbox = .read (0x10000 + t * 0x2000 + a * 0x400 + k * 4) be :: rest →
    (∀ q, qEntry s t a k = some q → step s = .next ((s.setInbox rest).reply (BitVec.ofInt 32 q))) ∧
    (qEntry s t a k = none → ∃ q : Int, -32768 ≤ q ∧ q ≤ 32767 ∧
      step s = .next (((s.setInbox rest).reply (BitVec.ofInt 32 q)).countDraw))

/-- R50, R57, U5: whatever base the platform chooses, the window's addresses are the 2^ADDR_BITS from it on, 2^17 at the
default, each at its own offset (log 7). An access outside the window is not PXC's: it changes nothing and PXC answers
nothing. -/
def Obligations.WindowIsRelativeToTheBase : Prop :=
  (∀ (c : Config) (base off : Nat), off < 2 ^ c.addrBits → windowAddr c base (base + off) = some off) ∧
  (∀ (c : Config) (base addr : Nat), addr < base ∨ base + 2 ^ c.addrBits ≤ addr → windowAddr c base addr = none) ∧
  2 ^ Config.default.addrBits = 0x20000 ∧
  (∀ (s : State) (addr : Nat) (be : BitVec 4) (v : Word) (rest : List HostEvent), 2 ^ s.config.addrBits ≤ addr →
    (s.inbox = .write addr be v :: rest → step s = .next (s.setInbox rest)) ∧
    (s.inbox = .read addr be :: rest → step s = .next (s.setInbox rest)))

/-! ### SliceContext -/

/-- R31, R33: after a write to SC_QTI plane p's index is bits [4p+2 : 4p] of the value, for every plane below MAX_PLANES (4
at the default; other values: log 1); after a write to SC_MODE bit 0 says Golomb and bit 1 is reset_contexts. -/
def Obligations.SliceContextFields : Prop :=
  ∀ (s : State) (v : Word) (rest : List HostEvent), s.config.wf →
    (s.inbox = .write 0x50 0xF v :: rest → ∃ s', step s = .next s' ∧
      ∀ p, p < s.config.maxPlanes → planeTable s' p = (v.extractLsb' (4 * p) 3).toNat) ∧
    (s.inbox = .write 0x58 0xF v :: rest → ∃ s', step s = .next s' ∧
      (codingMode s' = .golomb ↔ v.getLsbD 0 = true) ∧ resetContexts s' = v.getLsbD 1)

/-- R34: no command reads the SliceContext registers, so a change to one alters no command's effect. For a CTX on an
unwritten entry the two sides take the same free value, which stands for the same unknown contents (log 4). -/
def Obligations.CommandsNeverReadTheSliceContext : Prop :=
  ∀ (i : Instr) (s : State) (v : Word), ∀ r ∈ sliceContextRegs,
    exec i (s.setReg r v) =
      match exec i s with
      | .next s' => .next (s'.setReg r v)
      | .fault f => .fault f
      | .refused x => .refused x

/-! ### Reset and invariants -/

/-- R190, R191: a reset leaves every register 0, so no fault, and every table entry without a value, whatever the state
before; so does the state after reset. (The model-only fault: OnlyResetDiscardsTheModelFault.) -/
def Obligations.ResetClearsRegistersAndTables : Prop :=
  (∀ (s : State) (rest : List HostEvent), s.inbox = .reset :: rest →
    ∃ s', step s = .next s' ∧ (∀ r, s'.reg r = 0) ∧ s'.faulted = false ∧
      (∀ x, s'.qtab.readByte x = none) ∧ (∀ t a k, qEntry s' t a k = none)) ∧
  (∀ r, State.reset.reg r = 0) ∧ (∀ t a k, qEntry State.reset t a k = none)

/-- The state after reset has the machine's invariant. -/
def Obligations.ResetHasTheInvariant : Prop :=
  Inv State.reset

/-- Every step keeps the invariant: legal parameters, canonical table storage of whole existing entries, unused register
bits 0 (R20), STATUS in one of its forms (R28, R161). -/
def Obligations.StepKeepsTheInvariant : Prop :=
  ∀ s s' : State, Inv s → step s = .next s' → Inv s'

/-- No step changes the parameters, and after reset each has the default R6 gives it (log 1: they are a field of the state). -/
def Obligations.StepKeepsTheParameters : Prop :=
  (∀ s s' : State, step s = .next s' → s'.config = s.config) ∧
  State.reset.config =
    { sw := 32, idxBits := 8, qw := 16, numTables := 8, skipProbeIndex := 0, widthBits := 32, nslBits := 16, csBits := 3,
      maxPlanes := 4, addrBits := 17, cmdLatency := none }

/-- R191: a reset in the middle of a host's sequence discards any fault, all register values and all table entries: what the
host does after it has the same effect whatever stood before. The parameters and the model's record of the host stay
(log 8), and the unknown contents of the tables after it are the same free values in both (log 4). -/
def Obligations.ResetForgetsTheStateBefore : Prop :=
  ∀ (k : Nat) (s u : State) (rest : List HostEvent), s.inbox = .reset :: rest → u.inbox = .reset :: rest →
    s.config = u.config → s.replies = u.replies → s.draws = u.draws →
    s.stream = u.stream →
    step s = step u ∧ Sys2Proof.core.run (k + 1) s = Sys2Proof.core.run (k + 1) u ∧
    Sys2Proof.core.run (k + 1) s = Sys2Proof.core.run k (applyReset (s.setInbox rest))

/-- R196, U4: nothing depends on CMD_LATENCY: two machines that differ in it alone take the same steps (with the same free
values in unwritten entries, which stand for the same unknown contents: log 4). -/
def Obligations.LatencyChangesNothing : Prop :=
  ∀ (s s' : State) (n : Option Nat), step s = .next s' → step (s.withLatency n) = .next (s'.withLatency n)

/-! ### Several instances -/

/-- R172, R42, R14: the instances of a system share nothing. After any sequence of events each instance is what its own
accesses and resets alone make of it, performed in their order, whatever the others do: its base stays, and no event stops
the system. An access reaches an instance exactly when its address is in the instance's window, and then no other; a reset
reaches exactly those the platform resets with it, together or apart. Windows without a common address are a premise, which
every step keeps; they and the form of a system are log 13. -/
def Obligations.InstancesShareNothing : Prop :=
  (∀ (es rest : List PlatformEvent) (is : List Instance),
    ∃ is', systemRun es.length ⟨is, es ++ rest⟩ = .next ⟨is', rest⟩ ∧ is'.length = is.length ∧
      ∀ (n : Nat) (i : Instance), is[n]? = some i →
        ∃ s', is'[n]? = some ⟨i.base, s'⟩ ∧
          performAll (eventsFor i.core.config i.base n es) i.core = .next s') ∧
  (∀ (c : Config) (base n addr : Nat) (be : BitVec 4) (v : Word),
    (base ≤ addr → addr < base + 2 ^ c.addrBits →
      localEvent c base n (.read addr be) = some (.read (addr - base) be) ∧
      localEvent c base n (.write addr be v) = some (.write (addr - base) be v)) ∧
    (addr < base ∨ base + 2 ^ c.addrBits ≤ addr →
      localEvent c base n (.read addr be) = none ∧ localEvent c base n (.write addr be v) = none)) ∧
  (∀ (c : Config) (base n : Nat) (which : List Nat),
    (n ∈ which → localEvent c base n (.reset which) = some .reset) ∧
    (n ∉ which → localEvent c base n (.reset which) = none)) ∧
  (∀ (y : System) (n m addr : Nat) (i j : Instance), y.wf → y.instances[n]? = some i → y.instances[m]? = some j →
    (windowAddr i.core.config i.base addr).isSome → (windowAddr j.core.config j.base addr).isSome → n = m) ∧
  (∀ y y' : System, y.wf → systemStep y = .next y' → y'.wf)
end

