-- ==== Sys2Proof/Laws/State.lean ====
section
/-! SUPPORT. The fields of an updated state: one lemma per update and field. -/

namespace Sys2Proof.Machine

/-- A register after a register write. -/
theorem reg_setReg (s : State) (r q : Reg) (v : Word) :
    (s.setReg r v).reg q = if q = r then v else s.reg q := by
  cases r <;> cases q <;> rfl

@[simp] theorem reg_setReg_same (s : State) (r : Reg) (v : Word) : (s.setReg r v).reg r = v := by
  simp [reg_setReg]

@[simp] theorem reg_setReg_ne (s : State) {r q : Reg} (v : Word) (h : q ≠ r) :
    (s.setReg r v).reg q = s.reg q := by
  simp [reg_setReg, h]

@[simp] theorem setReg_qtab (s : State) (r : Reg) (v : Word) : (s.setReg r v).qtab = s.qtab := by
  cases r <;> rfl

@[simp] theorem setReg_config (s : State) (r : Reg) (v : Word) : (s.setReg r v).config = s.config := by
  cases r <;> rfl

@[simp] theorem setReg_inbox (s : State) (r : Reg) (v : Word) : (s.setReg r v).inbox = s.inbox := by
  cases r <;> rfl

@[simp] theorem setReg_replies (s : State) (r : Reg) (v : Word) : (s.setReg r v).replies = s.replies := by
  cases r <;> rfl

@[simp] theorem setReg_draws (s : State) (r : Reg) (v : Word) : (s.setReg r v).draws = s.draws := by
  cases r <;> rfl

@[simp] theorem setReg_stream (s : State) (r : Reg) (v : Word) : (s.setReg r v).stream = s.stream := by
  cases r <;> rfl

@[simp] theorem setReg_modelFault (s : State) (r : Reg) (v : Word) : (s.setReg r v).modelFault = s.modelFault := by
  cases r <;> rfl

@[simp] theorem setReg_setReg (s : State) (r : Reg) (v w : Word) : (s.setReg r v).setReg r w = s.setReg r w := by
  cases r <;> rfl

/-- Writes to two registers commute. -/
theorem setReg_comm (s : State) {r q : Reg} (v w : Word) (h : r ≠ q) :
    (s.setReg r v).setReg q w = (s.setReg q w).setReg r v := by
  cases r <;> cases q <;> first | rfl | exact absurd rfl h

@[simp] theorem reg_setQtab (s : State) (m : Memory) (r : Reg) : (s.setQtab m).reg r = s.reg r := by
  cases r <;> rfl

@[simp] theorem setQtab_qtab (s : State) (m : Memory) : (s.setQtab m).qtab = m := rfl
@[simp] theorem setQtab_config (s : State) (m : Memory) : (s.setQtab m).config = s.config := rfl
@[simp] theorem setQtab_inbox (s : State) (m : Memory) : (s.setQtab m).inbox = s.inbox := rfl
@[simp] theorem setQtab_replies (s : State) (m : Memory) : (s.setQtab m).replies = s.replies := rfl
@[simp] theorem setQtab_draws (s : State) (m : Memory) : (s.setQtab m).draws = s.draws := rfl
@[simp] theorem setQtab_stream (s : State) (m : Memory) : (s.setQtab m).stream = s.stream := rfl
@[simp] theorem setQtab_modelFault (s : State) (m : Memory) : (s.setQtab m).modelFault = s.modelFault := rfl
@[simp] theorem setQtab_setQtab (s : State) (m n : Memory) : (s.setQtab m).setQtab n = s.setQtab n := rfl

@[simp] theorem reg_setInbox (s : State) (es : List HostEvent) (r : Reg) : (s.setInbox es).reg r = s.reg r := by
  cases r <;> rfl

@[simp] theorem setInbox_qtab (s : State) (es : List HostEvent) : (s.setInbox es).qtab = s.qtab := rfl
@[simp] theorem setInbox_config (s : State) (es : List HostEvent) : (s.setInbox es).config = s.config := rfl
@[simp] theorem setInbox_inbox (s : State) (es : List HostEvent) : (s.setInbox es).inbox = es := rfl
@[simp] theorem setInbox_replies (s : State) (es : List HostEvent) : (s.setInbox es).replies = s.replies := rfl
@[simp] theorem setInbox_draws (s : State) (es : List HostEvent) : (s.setInbox es).draws = s.draws := rfl
@[simp] theorem setInbox_stream (s : State) (es : List HostEvent) : (s.setInbox es).stream = s.stream := rfl
@[simp] theorem setInbox_modelFault (s : State) (es : List HostEvent) :
    (s.setInbox es).modelFault = s.modelFault := rfl
@[simp] theorem setInbox_setInbox (s : State) (es fs : List HostEvent) :
    (s.setInbox es).setInbox fs = s.setInbox fs := rfl
@[simp] theorem setInbox_self (s : State) : s.setInbox s.inbox = s := rfl

@[simp] theorem reg_reply (s : State) (w : Word) (r : Reg) : (s.reply w).reg r = s.reg r := by
  cases r <;> rfl

@[simp] theorem reply_qtab (s : State) (w : Word) : (s.reply w).qtab = s.qtab := rfl
@[simp] theorem reply_config (s : State) (w : Word) : (s.reply w).config = s.config := rfl
@[simp] theorem reply_inbox (s : State) (w : Word) : (s.reply w).inbox = s.inbox := rfl
@[simp] theorem reply_replies (s : State) (w : Word) : (s.reply w).replies = w :: s.replies := rfl
@[simp] theorem reply_draws (s : State) (w : Word) : (s.reply w).draws = s.draws := rfl
@[simp] theorem reply_stream (s : State) (w : Word) : (s.reply w).stream = s.stream := rfl
@[simp] theorem reply_modelFault (s : State) (w : Word) : (s.reply w).modelFault = s.modelFault := rfl

@[simp] theorem reg_countDraw (s : State) (r : Reg) : s.countDraw.reg r = s.reg r := by
  cases r <;> rfl

@[simp] theorem countDraw_qtab (s : State) : s.countDraw.qtab = s.qtab := rfl
@[simp] theorem countDraw_config (s : State) : s.countDraw.config = s.config := rfl
@[simp] theorem countDraw_inbox (s : State) : s.countDraw.inbox = s.inbox := rfl
@[simp] theorem countDraw_replies (s : State) : s.countDraw.replies = s.replies := rfl
@[simp] theorem countDraw_draws (s : State) : s.countDraw.draws = s.draws + 1 := rfl
@[simp] theorem countDraw_stream (s : State) : s.countDraw.stream = s.stream := rfl
@[simp] theorem countDraw_modelFault (s : State) : s.countDraw.modelFault = s.modelFault := rfl

@[simp] theorem reg_latch (s : State) (f : Fault) (r : Reg) : (s.latch f).reg r = s.reg r := by
  cases r <;> rfl

@[simp] theorem latch_qtab (s : State) (f : Fault) : (s.latch f).qtab = s.qtab := rfl
@[simp] theorem latch_config (s : State) (f : Fault) : (s.latch f).config = s.config := rfl
@[simp] theorem latch_inbox (s : State) (f : Fault) : (s.latch f).inbox = s.inbox := rfl
@[simp] theorem latch_replies (s : State) (f : Fault) : (s.latch f).replies = s.replies := rfl
@[simp] theorem latch_draws (s : State) (f : Fault) : (s.latch f).draws = s.draws := rfl
@[simp] theorem latch_stream (s : State) (f : Fault) : (s.latch f).stream = s.stream := rfl
@[simp] theorem latch_modelFault (s : State) (f : Fault) : (s.latch f).modelFault = some f := rfl

@[simp] theorem reg_applyReset (s : State) (r : Reg) : (applyReset s).reg r = 0 := by
  cases r <;> rfl

@[simp] theorem applyReset_qtab (s : State) : (applyReset s).qtab = [] := rfl
@[simp] theorem applyReset_config (s : State) : (applyReset s).config = s.config := rfl
@[simp] theorem applyReset_inbox (s : State) : (applyReset s).inbox = s.inbox := rfl
@[simp] theorem applyReset_replies (s : State) : (applyReset s).replies = s.replies := rfl
@[simp] theorem applyReset_draws (s : State) : (applyReset s).draws = s.draws := rfl
@[simp] theorem applyReset_stream (s : State) : (applyReset s).stream = s.stream := rfl
@[simp] theorem applyReset_modelFault (s : State) : (applyReset s).modelFault = none := rfl

/-! An update commutes with replacing the pending events. -/

@[simp] theorem setReg_setInbox (s : State) (r : Reg) (v : Word) (es : List HostEvent) :
    (s.setInbox es).setReg r v = (s.setReg r v).setInbox es := by
  cases r <;> rfl

@[simp] theorem setQtab_setInbox (s : State) (m : Memory) (es : List HostEvent) :
    (s.setInbox es).setQtab m = (s.setQtab m).setInbox es := rfl
@[simp] theorem reply_setInbox (s : State) (w : Word) (es : List HostEvent) :
    (s.setInbox es).reply w = (s.reply w).setInbox es := rfl
@[simp] theorem countDraw_setInbox (s : State) (es : List HostEvent) :
    (s.setInbox es).countDraw = s.countDraw.setInbox es := rfl
@[simp] theorem latch_setInbox (s : State) (f : Fault) (es : List HostEvent) :
    (s.setInbox es).latch f = (s.latch f).setInbox es := rfl
@[simp] theorem applyReset_setInbox (s : State) (es : List HostEvent) :
    applyReset (s.setInbox es) = (applyReset s).setInbox es := rfl

/-- FAULT is read from STATUS alone. -/
theorem faulted_eq (s : State) : s.faulted = (s.reg .STATUS).getLsbD 0 := rfl

/-- A state is its registers and its other fields. -/
theorem state_ext {s u : State} (hr : ∀ r, s.reg r = u.reg r) (hq : s.qtab = u.qtab) (hc : s.config = u.config)
    (hi : s.inbox = u.inbox) (hp : s.replies = u.replies) (hd : s.draws = u.draws)
    (hm : s.modelFault = u.modelFault) (ht : s.stream = u.stream) : s = u := by
  have h1 := hr .RESULT; have h2 := hr .STATUS; have h3 := hr .CFG
  have h4 := hr .S_LL; have h5 := hr .S_L; have h6 := hr .S_LT
  have h7 := hr .S_T; have h8 := hr .S_RT; have h9 := hr .S_TT
  have h10 := hr .G_WIDTH; have h11 := hr .G_NUMH; have h12 := hr .G_CSHIFT
  have h13 := hr .SC_POS_X; have h14 := hr .SC_POS_Y; have h15 := hr .SC_DIM_W
  have h16 := hr .SC_DIM_H; have h17 := hr .SC_QTI; have h18 := hr .SC_CTXCNT
  have h19 := hr .SC_MODE; have h20 := hr .SC_RCT0; have h21 := hr .SC_RCT1
  have h22 := hr .SC_RCT2; have h23 := hr .SC_RCT3
  cases s; cases u
  simp only [State.reg] at *
  simp_all

/-- Writing a register its own value changes nothing. -/
@[simp] theorem setReg_self (s : State) (r : Reg) : s.setReg r (s.reg r) = s := by
  cases r <;> rfl

end Sys2Proof.Machine
end

