-- ==== Sys2Proof/Laws/Memory.lean ====
section
/-! SUPPORT. The laws of table storage: read after write, everything else unchanged, and the canonical form kept. -/

namespace Sys2Proof.Machine

/-- A byte after a byte write. -/
theorem readByte_writeByte (m : Memory) (a x : Nat) (b : Byte) :
    (m.writeByte a b).readByte x = if x = a then some b else m.readByte x := by
  induction m with
  | nil => simp [Memory.writeByte, Memory.readByte, eq_comm]
  | cons c rest ih =>
    obtain ⟨a', b'⟩ := c
    simp only [Memory.writeByte]
    split
    · simp only [Memory.readByte, eq_comm]
    · split
      · subst a'
        simp only [Memory.readByte]
        by_cases h : a = x <;> simp [h, eq_comm]
      · simp only [Memory.readByte, ih]
        by_cases h : a' = x
        · subst x
          simp [*]
        · simp [h]

/-- Every address listed after a byte write is the written one or was listed before. -/
theorem mem_writeByte {m : Memory} {a : Nat} {b : Byte} {c : Host.Cell} (h : c ∈ m.writeByte a b) :
    c = (a, b) ∨ c ∈ m := by
  induction m with
  | nil => simpa [Memory.writeByte] using h
  | cons d rest ih =>
    obtain ⟨a', b'⟩ := d
    simp only [Memory.writeByte] at h
    split at h
    · simpa using h
    · split at h
      · rcases List.mem_cons.1 h with h | h <;> simp [h]
      · rcases List.mem_cons.1 h with h | h
        · simp [h]
        · rcases ih h with h | h <;> simp [h]

/-- A byte write keeps the canonical form. -/
theorem writeByte_wf {m : Memory} (a : Nat) (b : Byte) (h : m.wf) : (m.writeByte a b).wf := by
  induction m with
  | nil => simp [Memory.writeByte, Memory.wf]
  | cons d rest ih =>
    obtain ⟨a', b'⟩ := d
    have h1 : ∀ y ∈ rest, a' < y.1 := (List.pairwise_cons.1 h).1
    have h2 : Memory.wf rest := (List.pairwise_cons.1 h).2
    simp only [Memory.writeByte]
    split
    · rename_i hlt
      refine List.pairwise_cons.2 ⟨fun y hy => ?_, h⟩
      rcases List.mem_cons.1 hy with rfl | hy
      · exact hlt
      · exact hlt.trans (h1 y hy)
    · split
      · rename_i heq
        subst heq
        exact List.pairwise_cons.2 ⟨h1, h2⟩
      · refine List.pairwise_cons.2 ⟨fun y hy => ?_, ih h2⟩
        rcases mem_writeByte hy with rfl | hy
        · show a' < a
          omega
        · exact h1 y hy

/-- A byte after an entry write: only the entry's two bytes change. -/
theorem readByte_writeEntry (qw : Nat) (m : Memory) (t a k : Nat) (v : Word) (x : Nat) :
    (m.writeEntry qw t a k v).readByte x =
      if x = entryAddr t a k + 1 then some (leByte (BitVec.ofNat 32 (v.toNat % 2 ^ qw)) 1)
      else if x = entryAddr t a k then some (leByte (BitVec.ofNat 32 (v.toNat % 2 ^ qw)) 0)
      else m.readByte x := by
  simp only [Memory.writeEntry, readByte_writeByte]

/-- An entry write keeps the canonical form. -/
theorem writeEntry_wf {m : Memory} (qw t a k : Nat) (v : Word) (h : m.wf) : (m.writeEntry qw t a k v).wf :=
  writeByte_wf _ _ (writeByte_wf _ _ h)

/-- Every address listed after an entry write is one of the entry's two or was listed before. -/
theorem mem_writeEntry {qw : Nat} {m : Memory} {t a k : Nat} {v : Word} {c : Host.Cell}
    (h : c ∈ m.writeEntry qw t a k v) :
    c.1 = entryAddr t a k ∨ c.1 = entryAddr t a k + 1 ∨ c ∈ m := by
  rcases mem_writeByte h with rfl | h
  · simp
  · rcases mem_writeByte h with rfl | h <;> simp [*]

/-- Existing entries of arrays below 8 and indices below 256 have addresses of their own (R54: no aliasing). -/
theorem entryAddr_inj {t a k t' a' k' : Nat} (ha : a < 8) (hk : k < 256) (ha' : a' < 8) (hk' : k' < 256)
    (h : entryAddr t a k = entryAddr t' a' k') : t = t' ∧ a = a' ∧ k = k' := by
  simp only [entryAddr] at h
  omega

/-- An entry read back after it is written holds the low QW bits (R36). -/
theorem readEntry_writeEntry_same {qw : Nat} (hq : qw ≤ 16) (m : Memory) (t a k : Nat) (v : Word) :
    (m.writeEntry qw t a k v).readEntry t a k = some (BitVec.ofNat 16 (v.toNat % 2 ^ qw)) := by
  have hp : 2 ^ qw ≤ 2 ^ 16 := Nat.pow_le_pow_right (by norm_num) hq
  have hlt : v.toNat % 2 ^ qw < 2 ^ 16 := lt_of_lt_of_le (Nat.mod_lt _ (by positivity)) hp
  simp only [Memory.readEntry, readByte_writeEntry]
  simp only [if_true, show ¬ entryAddr t a k = entryAddr t a k + 1 by omega, if_false, leByte]
  congr 1
  apply BitVec.eq_of_toNat_eq
  simp only [BitVec.toNat_ofNat]
  norm_num
  omega

/-- Another entry is unchanged by an entry write. -/
theorem readEntry_writeEntry_ne {qw : Nat} {m : Memory} {t a k t' a' k' : Nat} {v : Word}
    (ha : a < 8) (hk : k < 256) (ha' : a' < 8) (hk' : k' < 256) (h : ¬ (t = t' ∧ a = a' ∧ k = k')) :
    (m.writeEntry qw t a k v).readEntry t' a' k' = m.readEntry t' a' k' := by
  have hne : entryAddr t a k ≠ entryAddr t' a' k' := fun e => h (entryAddr_inj ha hk ha' hk' e)
  have h1 : entryAddr t' a' k' ≠ entryAddr t a k := fun e => hne e.symm
  have h2 : entryAddr t' a' k' ≠ entryAddr t a k + 1 := by simp only [entryAddr]; omega
  have h3 : entryAddr t' a' k' + 1 ≠ entryAddr t a k := by simp only [entryAddr]; omega
  have h4 : entryAddr t' a' k' + 1 ≠ entryAddr t a k + 1 := by omega
  simp only [Memory.readEntry, readByte_writeEntry, if_neg h1, if_neg h2, if_neg h3, if_neg h4]

/-- The table storage after reset is in canonical form. -/
theorem reset_qtab_wf : State.reset.qtab.wf := List.Pairwise.nil

/-- Two byte writes to one address are one. -/
theorem writeByte_writeByte_same (m : Memory) (a : Nat) (b c : Byte) :
    (m.writeByte a b).writeByte a c = m.writeByte a c := by
  induction m with
  | nil => simp [Memory.writeByte]
  | cons d rest ih =>
    obtain ⟨a', b'⟩ := d
    simp only [Memory.writeByte]
    split
    · simp [Memory.writeByte]
    · split
      · simp [Memory.writeByte]
      · simp only [Memory.writeByte, ih]
        simp [*]

end Sys2Proof.Machine
end

