-- ==== Sys2Proof/Laws/Ops.lean ====
section
/-! SUPPORT. What the shared operations and each meaning can do, said once. -/

namespace Sys2Proof.Machine

/-- `sext_32` of a word is the integer the word stands for. -/
theorem sextN_32 (w : Word) : sextN 32 w.toNat = w.toInt := by
  rw [BitVec.toInt_eq_toNat_bmod]
  rfl

/-- `sext_N` lies in the N-bit two's-complement range (R8). -/
theorem sextN_range {n : Nat} (h : 1 ≤ n) (v : Nat) :
    -(2 ^ (n - 1) : Int) ≤ sextN n v ∧ sextN n v < 2 ^ (n - 1) := by
  obtain ⟨m, rfl⟩ : ∃ m, n = m + 1 := ⟨n - 1, by omega⟩
  have hm : (0 : Nat) < 2 ^ (m + 1) := by positivity
  have h1 := Int.le_bmod (x := (v : Int)) hm
  have h2 := Int.bmod_lt (x := (v : Int)) hm
  have h3 : ((2 : Nat) ^ (m + 1) : Int) = 2 * 2 ^ m := by ring
  simp only [sextN, Nat.add_sub_cancel]
  push_cast at h1 h2
  omega

/-- `sext_N` of at most `k` bits fits `k` signed bits. -/
theorem sextN_le {n k : Nat} (h : 1 ≤ n) (hk : n ≤ k) (v : Nat) :
    -(2 ^ (k - 1) : Int) ≤ sextN n v ∧ sextN n v < 2 ^ (k - 1) := by
  have h1 := sextN_range h v
  have h2 : (2 ^ (n - 1) : Int) ≤ 2 ^ (k - 1) := pow_le_pow_right₀ (by norm_num) (by omega)
  omega

/-- A signed value of 32 bits is what its word stands for (R8, R91, R104). -/
theorem toInt_wrap32 {v : Int} (h1 : -(2 ^ 31) ≤ v) (h2 : v < 2 ^ 31) : (wrap32 v).toInt = v := by
  simp only [wrap32, BitVec.toInt_ofInt]
  rw [Int.bmod_eq_of_le] <;> norm_num <;> omega

/-- A sample register read by a command is in the range of its SW bits (R22). -/
theorem sample_range {s : State} (h : s.config.wf) (r : Reg) : -(2 ^ 31) ≤ sample s r ∧ sample s r < 2 ^ 31 := by
  obtain ⟨⟨h1, h2⟩, -⟩ := h
  exact sextN_le h1 h2 _

/-- A table entry is in the range of its QW bits (R35, R36). -/
theorem qEntry_range {s : State} (h : s.config.wf) {t a k : Nat} {q : Int} (hq : qEntry s t a k = some q) :
    -(2 ^ 15) ≤ q ∧ q < 2 ^ 15 := by
  obtain ⟨-, -, ⟨h1, h2⟩, -⟩ := h
  simp only [qEntry, Option.map_eq_some_iff] at hq
  obtain ⟨e, -, rfl⟩ := hq
  exact sextN_le h1 h2 _

/-- `Mask` answers an index of the arrays (R10). -/
theorem maskIndex_lt (c : Config) (d : Int) : maskIndex c d < 2 ^ c.idxBits := by
  have h1 : (0 : Int) < 2 ^ c.idxBits := by positivity
  have h2 := Int.emod_nonneg d h1.ne'
  have h3 := Int.emod_lt_of_pos d h1
  have h4 : ((maskIndex c d : Nat) : Int) = d % 2 ^ c.idxBits := Int.toNat_of_nonneg h2
  have h5 : ((maskIndex c d : Nat) : Int) < ((2 ^ c.idxBits : Nat) : Int) := by push_cast; omega
  exact_mod_cast h5

/-- The width is a 32-bit number (R23). -/
theorem width_lt (s : State) : width s < 2 ^ 32 :=
  lt_of_le_of_lt (Nat.mod_le _ _) (s.reg .G_WIDTH).isLt

/-- The number of slices has NSL_BITS bits (R24). -/
theorem numHSlices_lt (s : State) : numHSlices s < 2 ^ s.config.nslBits :=
  Nat.mod_lt _ (by positivity)

/-- The chroma shift has CS_BITS bits (R25). -/
theorem chromaShift_lt (s : State) : chromaShift s < 2 ^ s.config.csBits :=
  Nat.mod_lt _ (by positivity)

/-- A free entry is in the range of its QW bits (U9). -/
theorem drawEntry_range {s : State} (h : s.config.wf) (t a k : Nat) :
    -(2 ^ 15) ≤ drawEntry s t a k ∧ drawEntry s t a k < 2 ^ 15 := by
  obtain ⟨-, -, ⟨h1, h2⟩, -⟩ := h
  exact sextN_le h1 h2 _

/-- SKIP(t) is known exactly when both probe entries are, and it is the test of R101. -/
theorem skip_eq_some {s : State} {t : Nat} {b : Bool} :
    skip s t = some b ↔ ∃ q3 q4, probe s t 3 = some q3 ∧ probe s t 4 = some q4 ∧
      b = (decide (q3 = 0) && decide (q4 = 0)) := by
  unfold skip
  cases probe s t 3 <;> cases probe s t 4 <;> simp [eq_comm]

/-- A written entry's value is the entry. -/
theorem entryValue_eq {s : State} {t a k : Nat} {q : Int} (h : qEntry s t a k = some q) : entryValue s t a k = q := by
  simp [entryValue, h]

/-- An entry's value is in the range of an entry, written or not. -/
theorem entryValue_range {s : State} (h : s.config.wf) (t a k : Nat) :
    -(2 ^ 15) ≤ entryValue s t a k ∧ entryValue s t a k < 2 ^ 15 := by
  unfold entryValue
  cases hl : qEntry s t a k with
  | none => exact drawEntry_range h t a k
  | some q => exact qEntry_range h hl

/-- A written lookup is its entry. -/
theorem lookupValue_eq {s : State} {t a : Nat} {q : Int} (h : lookup s t a = some q) : lookupValue s t a = q :=
  entryValue_eq h

/-- A written probe is its entry. -/
theorem probeValue_eq {s : State} {t a : Nat} {q : Int} (h : probe s t a = some q) : probeValue s t a = q :=
  entryValue_eq h

/-- A lookup is in the range of an entry, written or not. -/
theorem lookupValue_range {s : State} (h : s.config.wf) (t a : Nat) :
    -(2 ^ 15) ≤ lookupValue s t a ∧ lookupValue s t a < 2 ^ 15 :=
  entryValue_range h t a _

/-- A context index is the sum of three or of five lookups. -/
theorem contextValue_cases (s : State) (t : Nat) :
    (probeValue s t 3 = 0 ∧ probeValue s t 4 = 0 ∧
      contextValue s t = lookupValue s t 0 + lookupValue s t 1 + lookupValue s t 2) ∨
    (¬ (probeValue s t 3 = 0 ∧ probeValue s t 4 = 0) ∧
      contextValue s t = lookupValue s t 0 + lookupValue s t 1 + lookupValue s t 2 + lookupValue s t 3 +
        lookupValue s t 4) := by
  unfold contextValue
  split
  · exact .inl ⟨(‹_ ∧ _› : _ ∧ _).1, (‹_ ∧ _› : _ ∧ _).2, rfl⟩
  · exact .inr ⟨‹_›, rfl⟩

/-- A context index is fixed by its lookups and probes. -/
theorem contextValue_congr {s u : State} {t t' : Nat} (hl : ∀ a, lookupValue s t a = lookupValue u t' a)
    (hp : ∀ a, probeValue s t a = probeValue u t' a) : contextValue s t = contextValue u t' := by
  have h1 := contextValue_cases s t
  have h2 := contextValue_cases u t'
  simp only [hl, hp] at h1
  rcases h1 with ⟨a, b, e⟩ | ⟨n, e⟩ <;> rcases h2 with ⟨c, d, f⟩ | ⟨m, f⟩
  · rw [e, f]
  · exact absurd ⟨a, b⟩ m
  · exact absurd ⟨c, d⟩ n
  · rw [e, f]

/-- CTX reads an unwritten entry exactly when an entry of these is unwritten (R168). -/
theorem readsUnwritten_iff {s : State} {t : Nat} :
    readsUnwritten s t = true ↔
      lookup s t 0 = none ∨ lookup s t 1 = none ∨ lookup s t 2 = none ∨ probe s t 3 = none ∨ probe s t 4 = none ∨
        (skip s t = some false ∧ (lookup s t 3 = none ∨ lookup s t 4 = none)) := by
  simp [readsUnwritten, or_assoc]

/-- Where CTX reads no unwritten entry, its two cases (R100, R101). -/
theorem written_cases {s : State} {t : Nat} (h : readsUnwritten s t = false) :
    ∃ q0 q1 q2, lookup s t 0 = some q0 ∧ lookup s t 1 = some q1 ∧ lookup s t 2 = some q2 ∧
      ((skip s t = some true ∧ contextValue s t = q0 + q1 + q2) ∨
       (skip s t = some false ∧ ∃ q3 q4, lookup s t 3 = some q3 ∧ lookup s t 4 = some q4 ∧
          contextValue s t = q0 + q1 + q2 + q3 + q4)) := by
  have hn := mt (readsUnwritten_iff (s := s) (t := t)).2 (by simp [h])
  simp only [not_or, not_and] at hn
  obtain ⟨h0, h1, h2, h3, h4, h5⟩ := hn
  obtain ⟨q0, e0⟩ := Option.ne_none_iff_exists'.1 h0
  obtain ⟨q1, e1⟩ := Option.ne_none_iff_exists'.1 h1
  obtain ⟨q2, e2⟩ := Option.ne_none_iff_exists'.1 h2
  obtain ⟨p3, e3⟩ := Option.ne_none_iff_exists'.1 h3
  obtain ⟨p4, e4⟩ := Option.ne_none_iff_exists'.1 h4
  refine ⟨q0, q1, q2, e0, e1, e2, ?_⟩
  have hs := skip_eq_some.2 ⟨p3, p4, e3, e4, rfl⟩
  rcases contextValue_cases s t with ⟨z3, z4, e⟩ | ⟨hz, e⟩ <;>
    simp only [probeValue_eq e3, probeValue_eq e4, lookupValue_eq e0, lookupValue_eq e1, lookupValue_eq e2] at *
  · exact .inl ⟨by simpa [z3, z4] using hs, e⟩
  · have hf : skip s t = some false := by
      rw [hs]
      simpa using hz
    obtain ⟨q3, e3'⟩ := Option.ne_none_iff_exists'.1 (h5 hf).1
    obtain ⟨q4, e4'⟩ := Option.ne_none_iff_exists'.1 (h5 hf).2
    exact .inr ⟨hf, q3, q4, e3', e4', by rw [e, lookupValue_eq e3', lookupValue_eq e4']⟩

/-- PRED completes with the prediction in RESULT. -/
theorem execPred_eq (s : State) :
    exec .pred s = .next (s.setReg .RESULT (wrap32 (predict (sample s .S_L) (sample s .S_T) (sample s .S_LT)))) := rfl

/-- Everything CTX can do (R100, R168). -/
theorem execCtx_cases (t : Nat) (s : State) :
    (s.config.numTables ≤ t ∧ exec (.ctx t) s = .next (s.setReg .STATUS (statusWord .tableRange))) ∨
    (t < s.config.numTables ∧ readsUnwritten s t = false ∧
      exec (.ctx t) s = .next (s.setReg .RESULT (wrap32 (contextValue s t)))) ∨
    (t < s.config.numTables ∧ readsUnwritten s t = true ∧
      exec (.ctx t) s =
        .next (((s.setReg .RESULT (wrap32 (contextValue s t))).countDraw).latch .uninitTable)) := by
  simp only [exec, execCtx, raiseFault, complete, completeUninit]
  split
  · exact .inl ⟨‹_›, rfl⟩
  · split
    · exact .inr (.inr ⟨by omega, ‹_›, rfl⟩)
    · exact .inr (.inl ⟨by omega, by simpa using ‹¬readsUnwritten s t = true›, rfl⟩)

/-- Everything SCOORD can do (R120, R122). -/
theorem execScoord_cases (i : Nat) (s : State) :
    (width s = 0 ∧ exec (.scoord i) s = .next (s.setReg .STATUS (statusWord .widthZero))) ∨
    (0 < width s ∧ numHSlices s = 0 ∧ exec (.scoord i) s = .next (s.setReg .STATUS (statusWord .slicesZero))) ∨
    (0 < width s ∧ 0 < numHSlices s ∧ numHSlices s < i ∧
      exec (.scoord i) s = .next (s.setReg .STATUS (statusWord .sliceIndexRange))) ∨
    (0 < width s ∧ 0 < numHSlices s ∧ i ≤ numHSlices s ∧ geomLegacy s = true ∧
      exec (.scoord i) s =
        .next (s.setReg .RESULT (BitVec.ofNat 32 (legacyBoundary (width s) (numHSlices s) i)))) ∨
    (0 < width s ∧ 0 < numHSlices s ∧ i ≤ numHSlices s ∧ geomLegacy s = false ∧
      exec (.scoord i) s =
        .next (s.setReg .RESULT (BitVec.ofNat 32 (currentBoundary (width s) (numHSlices s) (chromaShift s) i)))) := by
  simp only [exec, execScoord, raiseFault, complete]
  split
  · exact .inl ⟨‹_›, rfl⟩
  · split
    · exact .inr (.inl ⟨by omega, ‹_›, rfl⟩)
    · split
      · exact .inr (.inr (.inl ⟨by omega, by omega, ‹_›, rfl⟩))
      · split
        · exact .inr (.inr (.inr (.inl ⟨by omega, by omega, by omega, ‹_›, rfl⟩)))
        · exact .inr (.inr (.inr (.inr ⟨by omega, by omega, by omega, by simpa using ‹¬geomLegacy s = true›, rfl⟩)))

/-- Everything RLT can do (R141). -/
theorem execRlt_cases (c : Nat) (s : State) :
    (∃ n, runLengthRom[c]? = some n ∧ c < Config.rlEntries ∧
      exec (.rlt c) s = .next (s.setReg .RESULT (BitVec.ofNat 32 n))) ∨
    (Config.rlEntries ≤ c ∧ exec (.rlt c) s = .next (s.setReg .STATUS (statusWord .rlClassRange))) := by
  simp only [exec, execRlt, raiseFault, complete]
  have hlen : runLengthRom.length = Config.rlEntries := rfl
  cases h : runLengthRom[c]? with
  | none => exact .inr ⟨hlen ▸ List.getElem?_eq_none_iff.1 h, rfl⟩
  | some n =>
    obtain ⟨hlt, -⟩ := List.getElem?_eq_some_iff.1 h
    exact .inl ⟨n, rfl, hlen ▸ hlt, rfl⟩

/-- Every command goes on, in one of four ways (R151, R168). -/
theorem exec_cases (i : Instr) (s : State) :
    exec i s = .next s ∨ (∃ v, exec i s = .next (s.setReg .RESULT v)) ∨
    (∃ c, exec i s = .next (s.setReg .STATUS (statusWord c))) ∨
    ∃ t v, i = .ctx t ∧ t < s.config.numTables ∧ readsUnwritten s t = true ∧
      exec i s = .next (((s.setReg .RESULT v).countDraw).latch .uninitTable) := by
  cases i with
  | nop => exact .inl rfl
  | pred => exact .inr (.inl ⟨_, rfl⟩)
  | ctx t =>
    rcases execCtx_cases t s with ⟨-, e⟩ | ⟨-, -, e⟩ | ⟨ht, hu, e⟩
    · exact .inr (.inr (.inl ⟨_, e⟩))
    · exact .inr (.inl ⟨_, e⟩)
    · exact .inr (.inr (.inr ⟨t, _, rfl, ht, hu, e⟩))
  | scoord n =>
    rcases execScoord_cases n s with ⟨-, e⟩ | ⟨-, -, e⟩ | ⟨-, -, -, e⟩ | ⟨-, -, -, -, e⟩ | ⟨-, -, -, -, e⟩
    · exact .inr (.inr (.inl ⟨_, e⟩))
    · exact .inr (.inr (.inl ⟨_, e⟩))
    · exact .inr (.inr (.inl ⟨_, e⟩))
    · exact .inr (.inl ⟨_, e⟩)
    · exact .inr (.inl ⟨_, e⟩)
  | rlt c =>
    rcases execRlt_cases c s with ⟨n, -, -, e⟩ | ⟨-, e⟩
    · exact .inr (.inl ⟨_, e⟩)
    · exact .inr (.inr (.inl ⟨_, e⟩))

/-- A command does not look at the pending events, and leaves them. -/
theorem exec_setInbox {i : Instr} {s s' : State} (es : List HostEvent) (h : exec i s = .next s') :
    exec i (s.setInbox es) = .next (s'.setInbox es) := by
  cases i with
  | nop => injection h with h; subst h; rfl
  | pred => injection h with h; subst h; exact congrArg _ (setReg_setInbox s .RESULT _ es)
  | ctx t =>
    have hu : readsUnwritten (s.setInbox es) t = readsUnwritten s t := rfl
    have hv : contextValue (s.setInbox es) t = contextValue s t := rfl
    rcases execCtx_cases t s with ⟨c, e⟩ | ⟨c, u, e⟩ | ⟨c, u, e⟩ <;>
      rcases execCtx_cases t (s.setInbox es) with ⟨d, f⟩ | ⟨d, w, f⟩ | ⟨d, w, f⟩ <;>
      simp_all <;> omega
  | scoord n =>
    have h1 : width (s.setInbox es) = width s := rfl
    have h2 : numHSlices (s.setInbox es) = numHSlices s := rfl
    have h3 : chromaShift (s.setInbox es) = chromaShift s := rfl
    have h4 : geomLegacy (s.setInbox es) = geomLegacy s := rfl
    simp only [exec, execScoord, h1, h2, h3, h4, raiseFault, complete, setReg_setInbox] at h ⊢
    split_ifs at h ⊢ <;> (injection h with h; subst h; rfl)
  | rlt c =>
    simp only [exec, execRlt, raiseFault, complete, setReg_setInbox] at h ⊢
    split at h <;> (injection h with h; subst h; rfl)

/-- Everything a CMD write can do (R151, R164): it is ignored, runs its command, or is illegal. -/
theorem execute_cases (w : Word) (s : State) :
    (s.faulted = true ∧ execute w s = .next s) ∨
    (s.faulted = false ∧ ∃ i, decode s.config w = .ok i ∧ execute w s = exec i s) ∨
    (s.faulted = false ∧ (∃ e, decode s.config w = .error e) ∧
      execute w s = .next (s.setReg .STATUS (statusWord .illegalCmd))) := by
  unfold execute
  cases hf : s.faulted with
  | true => exact .inl ⟨rfl, rfl⟩
  | false =>
    cases hd : decode s.config w with
    | ok i => exact .inr (.inl ⟨rfl, i, rfl, rfl⟩)
    | error e => exact .inr (.inr ⟨rfl, ⟨e, rfl⟩, rfl⟩)

end Sys2Proof.Machine
end

