-- ==== Sys2Proof/Laws/Bus.lean ====
section
/-! SUPPORT. The window's decode, bus accesses, and what one step can do. -/

namespace Sys2Proof.Machine

/-- An address inside the window is below the bound `locate` tests. -/
theorem in_window {c : Config} (hw : c.wf) {n : Nat} (h : n < 0x20000) : ¬ 2 ^ c.addrBits ≤ n := by
  have h17 : 2 ^ 17 ≤ 2 ^ c.addrBits := Nat.pow_le_pow_right (by norm_num) hw.2.2.2.2.2.2.2.2.2
  omega

/-- CMD's offset reaches CMD. -/
@[simp] theorem locate_cmd (c : Config) : locate c cmdOffset = .cmd := by
  have : ¬ 2 ^ c.addrBits ≤ cmdOffset := by
    have : 0 < 2 ^ c.addrBits := by positivity
    simp only [cmdOffset]
    omega
  simp only [locate, if_neg this]
  rfl

/-- A register's offset reaches the register (R20). -/
theorem locate_reg {c : Config} (hw : c.wf) (r : Reg) : locate c r.offset = .reg r := by
  have : ¬ 2 ^ c.addrBits ≤ r.offset := in_window hw (by cases r <;> decide)
  simp only [locate, if_neg this]
  cases r <;> rfl

/-- An address that reaches CMD is CMD's offset: no address aliases it (R54). -/
theorem locate_eq_cmd {c : Config} {addr : Nat} (h : locate c addr = .cmd) : addr = cmdOffset := by
  simp only [locate] at h
  split_ifs at h with h1 h2 h3 h4
  · exact h4
  · split at h <;> cases h

/-- An address that reaches a register is its offset (R20, R54). -/
theorem locate_eq_reg {c : Config} {addr : Nat} {r : Reg} (h : locate c addr = .reg r) : addr = r.offset := by
  simp only [locate] at h
  split_ifs at h
  split at h
  · rename_i hf
    injection h with h
    subst h
    have := List.find?_some hf
    simp only [beq_iff_eq] at this
    exact this.symm
  · cases h

/-- An address that reaches an entry is the entry's own, and the entry exists (R36, R54). -/
theorem locate_eq_entry {c : Config} {addr : Nat} {t a k : Nat} (h : locate c addr = .entry t a k) :
    EntryExists c t a k ∧ k < 256 ∧ addr = entryAddr t a k := by
  simp only [locate] at h
  split_ifs at h with h1 h2 h3 h4 h5
  · split at h <;> cases h
  · injection h with e1 e2 e3
    subst e1 e2 e3
    refine ⟨h5, by omega, ?_⟩
    simp only [entryAddr]
    omega

/-- An existing entry's address reaches it (R36). -/
theorem locate_entry {c : Config} (hw : c.wf) {t a k : Nat} (h : EntryExists c t a k) :
    locate c (entryAddr t a k) = .entry t a k := by
  have hx := h
  obtain ⟨ht, ha, hk⟩ := h
  have hn := hw.2.2.2.1.2
  have hk8 : k < 256 := lt_of_lt_of_le hk (by
    calc 2 ^ c.idxBits ≤ 2 ^ 8 := Nat.pow_le_pow_right (by norm_num) hw.2.1.2
      _ = 256 := by norm_num)
  have ha5 : a < 5 := ha
  have e0 : ¬ 2 ^ c.addrBits ≤ entryAddr t a k := in_window hw (by simp only [entryAddr]; omega)
  have e1 : (entryAddr t a k - 0x10000) / 0x2000 = t := by simp only [entryAddr]; omega
  have e2 : entryAddr t a k / 0x400 % 8 = a := by simp only [entryAddr]; omega
  have e3 : entryAddr t a k / 4 % 256 = k := by simp only [entryAddr]; omega
  have e4 : ¬ entryAddr t a k % 4 ≠ 0 := by simp only [entryAddr]; omega
  have e5 : ¬ entryAddr t a k < 0x10000 := by simp only [entryAddr]; omega
  simp only [locate, if_neg e0, if_neg e4, if_neg e5, e1, e2, e3]
  rw [if_pos hx]

/-- An index of an array is below 256 (R6, R35). -/
theorem index_lt_256 {c : Config} (hw : c.wf) {k : Nat} (hk : k < 2 ^ c.idxBits) : k < 256 :=
  lt_of_lt_of_le hk (by
    calc 2 ^ c.idxBits ≤ 2 ^ 8 := Nat.pow_le_pow_right (by norm_num) hw.2.1.2
      _ = 256 := by norm_num)

/-- The entry a table write leaves (R36). -/
theorem qEntry_writeEntry {s : State} (hw : s.config.wf) (t a k : Nat) (v : Word) :
    qEntry (s.setQtab (s.qtab.writeEntry s.config.qw t a k v)) t a k = some (sextN s.config.qw v.toNat) := by
  have hq := hw.2.2.1.2
  have hp : 2 ^ s.config.qw ≤ 2 ^ 16 := Nat.pow_le_pow_right (by norm_num) hq
  have hm := Nat.mod_lt v.toNat (show 0 < 2 ^ s.config.qw by positivity)
  simp only [qEntry, setQtab_qtab, setQtab_config, readEntry_writeEntry_same hq, Option.map_some]
  rw [BitVec.toNat_ofNat, Nat.mod_eq_of_lt (by omega)]
  simp only [sextN, Int.natCast_mod]
  exact congrArg some (by exact_mod_cast Int.emod_bmod (v.toNat : Int) (2 ^ s.config.qw))

/-- A read hands at most one word to the host and changes at most the count of free values drawn (R55). -/
theorem busRead_cases (addr : Nat) (s : State) :
    (2 ^ s.config.addrBits ≤ addr ∧ busRead addr s = s) ∨
    (addr < 2 ^ s.config.addrBits ∧
      ∃ w, busRead addr s = s.reply w ∨ busRead addr s = (s.reply w).countDraw) := by
  by_cases hb : 2 ^ s.config.addrBits ≤ addr
  · exact .inl ⟨hb, by simp [busRead, locate, hb]⟩
  · refine .inr ⟨by omega, ?_⟩
    unfold busRead
    split
    · exact ⟨_, .inl rfl⟩
    · exact ⟨_, .inl rfl⟩
    · split
      · exact ⟨_, .inl rfl⟩
      · exact ⟨_, .inr rfl⟩
    · exact ⟨_, .inl rfl⟩
    · rename_i h
      simp only [locate, if_neg hb] at h
      split_ifs at h
      split at h <;> cases h

/-- Everything a write to a location other than CMD can do (R152). -/
theorem writeLoc_cases (l : Loc) (v : Word) (s : State) :
    writeLoc l v s = s ∨
    (∃ r, l = .reg r ∧ r.writable = true ∧ writeLoc l v s = s.setReg r (v &&& r.mask s.config)) ∨
    ∃ t a k, l = .entry t a k ∧ writeLoc l v s = s.setQtab (s.qtab.writeEntry s.config.qw t a k v) := by
  cases l with
  | cmd => exact .inl rfl
  | reg r =>
    simp only [writeLoc, writeReg]
    split
    · exact .inr (.inl ⟨r, rfl, ‹_›, rfl⟩)
    · exact .inl rfl
  | entry t a k => exact .inr (.inr ⟨t, a, k, rfl, rfl⟩)
  | none => exact .inl rfl
  | outside => exact .inl rfl

/-- Everything a bus write can do: nothing, the command it writes to CMD, or a write of the location it reaches. -/
theorem busWrite_cases (addr : Nat) (be : BitVec 4) (v : Word) (s : State) :
    busWrite addr be v s = .next s ∨
    (be = 0xF ∧ addr = cmdOffset ∧ busWrite addr be v s = execute v s) ∨
    (be = 0xF ∧ locate s.config addr ≠ .cmd ∧ busWrite addr be v s = .next (writeLoc (locate s.config addr) v s)) := by
  unfold busWrite
  split
  · exact .inl rfl
  · rename_i hb
    have hb : be = 0xF := by simpa using hb
    split
    · exact .inr (.inl ⟨hb, locate_eq_cmd ‹_›, rfl⟩)
    · rename_i hl
      exact .inr (.inr ⟨hb, hl, rfl⟩)

/-- A command that a CMD write runs (R151). -/
theorem busWrite_cmd (v : Word) (s : State) :
    busWrite cmdOffset 0xF v s = execute v s := by
  simp [busWrite]

/-- The register map as written in `registerMap` is the one the bus uses. -/
theorem registerMap_row {c : Config} (hw : c.wf) : ∀ row ∈ registerMap c,
    row.offset = row.reg.offset ∧ row.rw = row.reg.writable ∧ row.used = row.reg.mask c := by
  obtain ⟨h1, h4⟩ := hw.2.2.2.2.2.2.2.2.1
  generalize hm : c.maxPlanes = m at h1 h4
  interval_cases m <;>
    simp [registerMap, Reg.offset, Reg.writable, Reg.mask, lowMask, planesMask, planeMask, hm, List.range_succ]

/-- A run of `k + 1` steps whose first goes on. -/
theorem core_run_next {s u : State} (k : Nat) (h : step s = .next u) :
    Sys2Proof.core.run (k + 1) s = Sys2Proof.core.run k u := by
  have hs : Sys2Proof.core.step s = .next u := h
  simp only [Host.Core.run, hs]

/-- A run goes on only if its first step does. -/
theorem core_run_inv {s s' : State} (k : Nat) (h : Sys2Proof.core.run (k + 1) s = .next s') :
    ∃ u, step s = .next u ∧ Sys2Proof.core.run k u = .next s' := by
  cases hs : step s with
  | next u => exact ⟨u, rfl, core_run_next k hs ▸ h⟩
  | fault f =>
    have hc : Sys2Proof.core.step s = .fault f := hs
    simp only [Host.Core.run, hc] at h
    cases h
  | refused x =>
    have hc : Sys2Proof.core.step s = .refused x := hs
    simp only [Host.Core.run, hc] at h
    cases h

/-- A step with nothing pending changes nothing (R197). -/
theorem step_idle {s : State} (h : s.inbox = []) : step s = .next s := by
  simp [step, performNext, h]

/-- A step performs the oldest pending event (R56). -/
theorem step_event {s : State} {e : HostEvent} {rest : List HostEvent} (h : s.inbox = e :: rest) :
    step s = hostEvent e (s.setInbox rest) := by
  simp [step, performNext, h]

/-- Everything one event can do to a state `s` that it takes to `s'`. -/
def EventEffect (e : HostEvent) (s s' : State) : Prop :=
  (e = .reset ∧ s' = applyReset s) ∨
  (∃ addr be, e = .read addr be ∧
    ((2 ^ s.config.addrBits ≤ addr ∧ s' = s) ∨
     (addr < 2 ^ s.config.addrBits ∧ ∃ w, s' = s.reply w ∨ s' = (s.reply w).countDraw))) ∨
  (∃ addr be v, e = .write addr be v ∧
    (s' = s ∨
     (∃ x, s' = s.setReg .RESULT x ∧ s.faulted = false) ∨
     (∃ c, s' = s.setReg .STATUS (statusWord c) ∧ s.faulted = false) ∨
     (∃ t x, be = 0xF ∧ addr = cmdOffset ∧ decode s.config v = .ok (.ctx t) ∧ t < s.config.numTables ∧
        readsUnwritten s t = true ∧ s.faulted = false ∧
        s' = ((s.setReg .RESULT x).countDraw).latch .uninitTable) ∨
     (∃ r, r.writable = true ∧ s' = s.setReg r (v &&& r.mask s.config)) ∨
     ∃ t a k, EntryExists s.config t a k ∧ k < 256 ∧
       s' = s.setQtab (s.qtab.writeEntry s.config.qw t a k v)))

/-- Every event goes on, with one of these effects. -/
theorem hostEvent_next (e : HostEvent) (s : State) : ∃ s', hostEvent e s = .next s' ∧ EventEffect e s s' := by
  cases e with
  | reset => exact ⟨_, rfl, .inl ⟨rfl, rfl⟩⟩
  | read addr be => exact ⟨_, rfl, .inr (.inl ⟨addr, be, rfl, busRead_cases addr s⟩)⟩
  | write addr be v =>
    rcases busWrite_cases addr be v s with e | ⟨hb, hc, e⟩ | ⟨-, hl, e⟩
    · exact ⟨s, e, .inr (.inr ⟨addr, be, v, rfl, .inl rfl⟩)⟩
    · rcases execute_cases v s with ⟨-, x⟩ | ⟨hf, i, hd, x⟩ | ⟨hf, -, x⟩
      · exact ⟨s, e.trans x, .inr (.inr ⟨addr, be, v, rfl, .inl rfl⟩)⟩
      · rcases exec_cases i s with y | ⟨z, y⟩ | ⟨z, y⟩ | ⟨t, z, rfl, ht, hu, y⟩
        · exact ⟨_, (e.trans x).trans y, .inr (.inr ⟨addr, be, v, rfl, .inl rfl⟩)⟩
        · exact ⟨_, (e.trans x).trans y, .inr (.inr ⟨addr, be, v, rfl, .inr (.inl ⟨z, rfl, hf⟩)⟩)⟩
        · exact ⟨_, (e.trans x).trans y, .inr (.inr ⟨addr, be, v, rfl, .inr (.inr (.inl ⟨z, rfl, hf⟩))⟩)⟩
        · exact ⟨_, (e.trans x).trans y, .inr (.inr ⟨addr, be, v, rfl,
            .inr (.inr (.inr (.inl ⟨t, z, hb, hc, hd, ht, hu, hf, rfl⟩)))⟩)⟩
      · exact ⟨_, e.trans x, .inr (.inr ⟨addr, be, v, rfl, .inr (.inr (.inl ⟨_, rfl, hf⟩))⟩)⟩
    · refine ⟨_, e, .inr (.inr ⟨addr, be, v, rfl, ?_⟩)⟩
      rcases writeLoc_cases (locate s.config addr) v s with w | ⟨r, -, hr, w⟩ | ⟨t, a, k, hl', w⟩
      · exact .inl w
      · exact .inr (.inr (.inr (.inr (.inl ⟨r, hr, w⟩))))
      · obtain ⟨he, hk, -⟩ := locate_eq_entry hl'
        exact .inr (.inr (.inr (.inr (.inr ⟨t, a, k, he, hk, w⟩))))

/-- The effect of an event that is known to go on to `s'`. -/
theorem hostEvent_cases {e : HostEvent} {s s' : State} (h : hostEvent e s = .next s') : EventEffect e s s' := by
  obtain ⟨u, hu, he⟩ := hostEvent_next e s
  rw [h] at hu
  injection hu with hu
  exact hu ▸ he

/-- An event does not look at the pending events, and leaves them. -/
theorem hostEvent_setInbox {e : HostEvent} {s s' : State} (es : List HostEvent) (h : hostEvent e s = .next s') :
    hostEvent e (s.setInbox es) = .next (s'.setInbox es) := by
  cases e with
  | reset => injection h with h; subst h; rfl
  | read addr be =>
    injection h with h
    subst h
    simp only [hostEvent, busRead, setInbox_config]
    have hq : ∀ t a k, qEntry (s.setInbox es) t a k = qEntry s t a k := fun _ _ _ => rfl
    split
    · rfl
    · simp [readReg]
    · simp only [hq]
      split <;> rfl
    · rfl
    · rfl
  | write addr be v =>
    simp only [hostEvent, busWrite, setInbox_config] at h ⊢
    split_ifs at h ⊢
    · injection h with h
      subst h
      rfl
    · split at h
      · rcases execute_cases v s with ⟨hf, e⟩ | ⟨hf, i, hd, e⟩ | ⟨hf, ⟨x, hd⟩, e⟩
        · rw [e] at h
          injection h with h
          subst h
          have : (s.setInbox es).faulted = true := hf
          simp [execute, this]
        · rw [e] at h
          have : (s.setInbox es).faulted = false := hf
          simp only [execute, this, setInbox_config, hd]
          exact exec_setInbox es h
        · rw [e] at h
          injection h with h
          subst h
          have : (s.setInbox es).faulted = false := hf
          simp [execute, this, hd, raiseFault]
      · injection h with h
        subst h
        cases locate s.config addr with
        | reg r =>
          simp only [writeLoc, writeReg, setInbox_config]
          split <;> simp
        | _ => rfl

/-- Every step goes on. -/
theorem step_next (s : State) : ∃ s', step s = .next s' := by
  cases hi : s.inbox with
  | nil => exact ⟨s, step_idle hi⟩
  | cons e rest =>
    obtain ⟨s', h, -⟩ := hostEvent_next e (s.setInbox rest)
    exact ⟨s', (step_event hi).trans h⟩

/-- Everything a step can do: with nothing pending, nothing; else the effect of the oldest event. -/
theorem step_cases {s s' : State} (h : step s = .next s') :
    (s.inbox = [] ∧ s' = s) ∨ ∃ e rest, s.inbox = e :: rest ∧ EventEffect e (s.setInbox rest) s' := by
  cases hi : s.inbox with
  | nil =>
    rw [step_idle hi] at h
    injection h with h
    exact .inl ⟨rfl, h.symm⟩
  | cons e rest => exact .inr ⟨e, rest, rfl, hostEvent_cases ((step_event hi).symm.trans h)⟩

/-- The fold of `hostEvent` over one more event. -/
theorem performAll_cons {e : HostEvent} {es : List HostEvent} {s u : State} (h : hostEvent e s = .next u) :
    performAll (e :: es) s = performAll es u := by
  simp [performAll, andThen, h]

/-- What PXC does to itself keeps its parameters, and the model's name for its unknown contents (R6, log 4). -/
theorem hostEvent_keeps {e : HostEvent} {s s' : State} (h : hostEvent e s = .next s') :
    s'.config = s.config ∧ s'.stream = s.stream := by
  rcases hostEvent_cases h with ⟨-, rfl⟩ | ⟨_, _, -, ⟨-, rfl⟩ | ⟨-, _, rfl | rfl⟩⟩ |
    ⟨_, _, _, -, rfl | ⟨_, rfl, -⟩ | ⟨_, rfl, -⟩ | ⟨_, _, -, -, -, -, -, -, rfl⟩ | ⟨_, -, rfl⟩ | ⟨_, _, _, -, -, rfl⟩⟩ <;>
    simp

/-- Performing events never stops (R162; log 2). -/
theorem performAll_next (es : List HostEvent) (s : State) : ∃ s', performAll es s = .next s' := by
  induction es generalizing s with
  | nil => exact ⟨s, rfl⟩
  | cons e es ih =>
    obtain ⟨u, hu, -⟩ := hostEvent_next e s
    rw [performAll_cons hu]
    exact ih u

end Sys2Proof.Machine
end

