-- ==== Sys2Proof/Laws/Geometry.lean ====
section
/-! SUPPORT. The arithmetic of the slice boundaries (42_slice_geometry.md R120 to R126). -/

namespace Sys2Proof.Machine

/-- `awidth` is the least multiple of `m` not below a positive width (R121). -/
theorem roundUp_bounds {w m : Nat} (hm : 0 < m) (hw : 0 < w) :
    w ≤ m * ((w + m - 1) / m) ∧ m * ((w + m - 1) / m) < w + m ∧ 0 < (w + m - 1) / m := by
  have h1 := Nat.div_add_mod (w + m - 1) m
  have h2 := Nat.mod_lt (w + m - 1) hm
  exact ⟨by omega, by omega, Nat.div_pos (by omega) hm⟩

/-- The raw boundary with the common factor `mpw` taken out: floor((2ki + N)/(2N)) * mpw, with k = awidth/mpw (R124). -/
theorem rawBoundary_eq (w n cs i : Nat) :
    rawBoundary w n cs i = (2 * ((w + 2 ^ cs - 1) / 2 ^ cs) * i + n) / (2 * n) * 2 ^ cs := by
  simp only [rawBoundary, alignedWidth]
  congr 1
  rw [show 2 * (2 ^ cs * ((w + 2 ^ cs - 1) / 2 ^ cs)) * i + n * 2 ^ cs =
    (2 * ((w + 2 ^ cs - 1) / 2 ^ cs) * i + n) * 2 ^ cs by ring]
  exact Nat.mul_div_mul_right _ _ (by positivity)

/-- floor((2ki + N)/(2N)) does not decrease in i (R124). -/
theorem halfRound_mono {k n i j : Nat} (h : i ≤ j) : (2 * k * i + n) / (2 * n) ≤ (2 * k * j + n) / (2 * n) := by
  have := Nat.mul_le_mul_left (2 * k) h
  exact Nat.div_le_div_right (by omega)

/-- floor((2kN + N)/(2N)) is k (R124). -/
theorem halfRound_top {k n : Nat} (hn : 0 < n) : (2 * k * n + n) / (2 * n) = k := by
  rw [show 2 * k * n + n = n + k * (2 * n) by ring, Nat.add_mul_div_right _ _ (by omega),
    Nat.div_eq_of_lt (by omega)]
  omega

/-- The legacy boundary does not decrease in i (R126). -/
theorem legacyBoundary_mono {w n i j : Nat} (h : i ≤ j) : legacyBoundary w n i ≤ legacyBoundary w n j :=
  Nat.div_le_div_right (Nat.mul_le_mul_left _ h)

end Sys2Proof.Machine
end

