-- ==== Sys2Proof/Laws/PerInstr.lean ====
section
/-! SUPPORT. Statements made per command: families of lemmas, one per constructor of `Instr`. -/

namespace Sys2Proof.Laws

/-- The encoding of a well-formed command has the fixed bits of its row of the opcode map (30_encoding.md R76). -/
def FixedBits.Statement (i : Instr) : Prop :=
  ∀ c : Config, i.wellFormed c = true → ∃ row ∈ opcodeRows, row.mnemonic = i.mnemonic ∧ encode i &&& row.mask = row.pattern

theorem FixedBits.nop : FixedBits.Statement .nop :=
  fun _ _ => ⟨⟨"NOP", 0xFFFFFFFF, 0x00000000⟩, by simp [opcodeRows], rfl, by decide⟩

theorem FixedBits.pred : FixedBits.Statement .pred :=
  fun _ _ => ⟨⟨"PRED", 0xFFFFFFFF, 0x00000001⟩, by simp [opcodeRows], rfl, by decide⟩

theorem FixedBits.ctx (tidx : Nat) : FixedBits.Statement (.ctx tidx) := by
  intro _ h
  refine ⟨⟨"CTX", 0xFFFFFF8F, 0x00000002⟩, by simp [opcodeRows], rfl, ?_⟩
  simp only [Instr.wellFormed, decide_eq_true_eq] at h
  have : ∀ n : Fin 8, encode (.ctx n.val) &&& 0xFFFFFF8F = 0x00000002 := by decide
  exact this ⟨tidx, h⟩

theorem FixedBits.scoord (sidx : Nat) : FixedBits.Statement (.scoord sidx) := by
  intro _ _
  refine ⟨⟨"SCOORD", 0x0000FFFF, 0x00000003⟩, by simp [opcodeRows], rfl, ?_⟩
  apply BitVec.eq_of_toNat_eq
  have hm : (0x0000FFFF : Word).toNat = 2 ^ 16 - 1 := by decide
  have hp : (0x00000003 : Word).toNat = 3 := by decide
  simp only [encode, BitVec.toNat_and, BitVec.toNat_ofNat, hm, hp, Nat.and_two_pow_sub_one_eq_mod]
  omega

theorem FixedBits.rlt (cls : Nat) : FixedBits.Statement (.rlt cls) := by
  intro _ h
  refine ⟨⟨"RLT", 0xFFFFFC0F, 0x00000004⟩, by simp [opcodeRows], rfl, ?_⟩
  simp only [Instr.wellFormed, decide_eq_true_eq] at h
  have : ∀ n : Fin 64, encode (.rlt n.val) &&& 0xFFFFFC0F = 0x00000004 := by decide
  exact this ⟨cls, h⟩

end Sys2Proof.Laws
end

