-- ==== Sys2Proof/Laws/System.lean ====
section
/-! SUPPORT. What an event does to the instances of a system (60_exceptions.md R172). -/

namespace Sys2Proof.Machine

/-- An outcome that goes on is passed on. -/
@[simp] theorem andThen_next {α β : Type} (a : α) (f : α → Host.Outcome β Fault Refusal) : andThen (.next a) f = f a := rfl

/-- The events for one instance, one at a time. -/
theorem eventsFor_cons (c : Config) (base n : Nat) (e : PlatformEvent) (es : List PlatformEvent) :
    eventsFor c base n (e :: es) = (localEvent c base n e).toList ++ eventsFor c base n es := by
  simp only [eventsFor, List.filterMap_cons]
  cases localEvent c base n e <;> rfl

/-- Events performed after others. -/
theorem performAll_append {es fs : List HostEvent} {s u : State} (h : performAll es s = .next u) :
    performAll (es ++ fs) s = performAll fs u := by
  simp only [performAll, List.foldl_append] at h ⊢
  rw [h]

/-- An instance's part in an event goes on, and is the event it sees, performed on its own state. -/
theorem perform_next (e : PlatformEvent) (n : Nat) (i : Instance) :
    ∃ s', i.perform e n = .next ⟨i.base, s'⟩ ∧
      performAll (localEvent i.core.config i.base n e).toList i.core = .next s' ∧
      s'.config = i.core.config ∧ s'.stream = i.core.stream := by
  unfold Instance.perform
  cases localEvent i.core.config i.base n e with
  | none => exact ⟨i.core, rfl, rfl, rfl, rfl⟩
  | some ev =>
    obtain ⟨s', hs, -⟩ := hostEvent_next ev i.core
    exact ⟨s', by simp only [hs, andThen_next], performAll_cons hs, hostEvent_keeps hs⟩

/-- An event goes on at every instance, and each takes only its own part (R172). -/
theorem deliver_next (e : PlatformEvent) (m : Nat) (is : List Instance) :
    ∃ is', deliver e m is = .next is' ∧ is'.length = is.length ∧
      ∀ n i, is[n]? = some i → ∃ s', is'[n]? = some ⟨i.base, s'⟩ ∧
        performAll (localEvent i.core.config i.base (m + n) e).toList i.core = .next s' ∧
        s'.config = i.core.config ∧ s'.stream = i.core.stream := by
  induction is generalizing m with
  | nil => exact ⟨[], rfl, rfl, by simp⟩
  | cons i rest ih =>
    obtain ⟨s', hp, hs⟩ := perform_next e m i
    obtain ⟨rest', hd, hl, hr⟩ := ih (m + 1)
    refine ⟨⟨i.base, s'⟩ :: rest', by simp [deliver, hp, hd], by simp [hl], ?_⟩
    intro n j hj
    cases n with
    | zero =>
      simp only [List.getElem?_cons_zero, Option.some.injEq] at hj
      subst hj
      exact ⟨s', rfl, hs⟩
    | succ n =>
      obtain ⟨u, hu, hx⟩ := hr n j (by simpa using hj)
      exact ⟨u, by simpa using hu, by rwa [show m + (n + 1) = m + 1 + n by omega]⟩

/-- A step of the system with an event pending. -/
theorem systemStep_event {is is' : List Instance} {e : PlatformEvent} {rest : List PlatformEvent}
    (h : deliver e 0 is = .next is') : systemStep ⟨is, e :: rest⟩ = .next ⟨is', rest⟩ := by
  simp [systemStep, h]

end Sys2Proof.Machine
end

