-- ==== Sys2Proof/Tests/Slice0.lean ====
section
/-! SUPPORT. The model's own tests. Expected values come from spec/95_test_vectors.md (named TV-…) or from the encodings of
30_encoding.md R76 and R79. The second part gives, for each statement with hypotheses, states and operands that meet them. -/

namespace Sys2Proof.Tests

open Sys2Proof Sys2Proof.Machine

/-! ### Building small states -/

/-- The state after reset with some registers set. -/
def withRegs (rs : List (Reg × Word)) : State :=
  rs.foldl (fun s p => s.setReg p.1 p.2) State.reset

/-- Table storage with the listed entries (t, a, k, value) written. -/
def entries (es : List (Nat × Nat × Nat × Word)) : Memory :=
  es.foldl (fun m e => m.writeEntry 16 e.1 e.2.1 e.2.2.1 e.2.2.2) []

/-- A register after a step or a command that goes on. -/
def regAfter (o : Outcome) (r : Reg) : Option Word :=
  match o with
  | .next s => some (s.reg r)
  | _ => none

/-- The newest word handed to the host after two steps. -/
def replyAfterTwo (s : State) : Option Word :=
  match step s with
  | .next s1 =>
    match step s1 with
    | .next s2 => s2.replies.head?
    | _ => none
  | _ => none

/-- The model-only fault recorded after a step or a command that goes on. -/
def modelFaultAfter (o : Outcome) : Option Fault :=
  match o with
  | .next s => s.modelFault
  | _ => none

/-! ### Well-formedness: the check refuses each ill-formed term -/

theorem test_wf_refuses_ctx_8 : (Instr.ctx 8).wellFormed Config.default = false := by decide
theorem test_wf_refuses_scoord_65536 : (Instr.scoord 65536).wellFormed Config.default = false := by decide
theorem test_wf_refuses_rlt_64 : (Instr.rlt 64).wellFormed Config.default = false := by decide

/-! ### Decoding words written out from the encodings -/

theorem test_decode_nop : decode Config.default 0b00000000000000000000000000000000 = .ok .nop := by rfl
theorem test_decode_pred : decode Config.default 0b00000000000000000000000000000001 = .ok .pred := by rfl
theorem test_decode_ctx : decode Config.default 0b00000000000000000000000001010010 = .ok (.ctx 5) := by rfl
theorem test_decode_scoord : decode Config.default 0b10000000000000100000000000000011 = .ok (.scoord 32770) := by rfl
theorem test_decode_rlt : decode Config.default 0b00000000000000000000001010000100 = .ok (.rlt 40) := by rfl
theorem test_decode_nop_bit4 : decode Config.default 0x00000010 = .error (.reservedBits 0) := by rfl
theorem test_decode_pred_bit4 : decode Config.default 0x00000011 = .error (.reservedBits 1) := by rfl
/-- TV-X3's word: its OP is 5. -/
theorem test_decode_reserved_opcode : decode Config.default 0x00000015 = .error (.reservedOpcode 5) := by rfl
theorem test_decode_ctx_bit7 : decode Config.default 0x00000082 = .error (.reservedBits 2) := by rfl
theorem test_decode_scoord_bit4 : decode Config.default 0x00000013 = .error (.reservedBits 3) := by rfl
theorem test_decode_rlt_bit10 : decode Config.default 0x00000404 = .error (.reservedBits 4) := by rfl
theorem test_decode_bytes : decodeBytes Config.default [0x03, 0x00, 0x05, 0x00, 0xAA] = .ok (.scoord 5, [0xAA]) := by rfl

/-! ### Commands -/

/-- TV-X1. -/
theorem test_nop_keeps_result : regAfter (exec .nop (withRegs [(.RESULT, 110)])) .RESULT = some 110 := by decide

/-- TV-P11: the gradient needs 34 bits. -/
theorem test_pred_exact_gradient :
    regAfter (exec .pred (withRegs [(.S_L, 0x7FFFFFFF), (.S_T, 0x7FFFFFFF), (.S_LT, 0x80000000)])) .RESULT =
      some 0x7FFFFFFF := by decide

/-- TV-P12: signed extremes, gradient between. -/
theorem test_pred_signed_extremes :
    regAfter (exec .pred (withRegs [(.S_L, 0x80000000), (.S_T, 0x7FFFFFFF), (.S_LT, 0)])) .RESULT =
      some 0xFFFFFFFF := by decide

/-- Neighbourhood N1 of 95_test_vectors.md. -/
def n1 : State :=
  withRegs [(.S_LL, 50), (.S_L, 60), (.S_LT, 55), (.S_T, 65), (.S_RT, 70), (.S_TT, 52)]

/-- N1 with the entries of kind K0 that TV-C1 reads: indices 5, 246, 251 and the probes at 0. -/
def tvC1 : State :=
  n1.setQtab (entries [(0, 0, 5, 2), (0, 1, 246, 0xFFFFFFF6), (0, 2, 251, 0xFFFFFFCE), (0, 3, 0, 0), (0, 4, 0, 0)])

/-- N1 with the entries of kind K1 that TV-C18 reads, and the probe index 127: q(127) is 2. -/
def tvC18 : State :=
  { n1.setQtab (entries [(0, 0, 5, 2), (0, 1, 246, 0xFFFFFFF6), (0, 2, 251, 0xFFFFFFCE),
      (0, 3, 246, 0xFFFFFF06), (0, 4, 243, 0xFFFFFB1E), (0, 3, 127, 250), (0, 4, 127, 1250)]) with
    config := { skipProbeIndex := 127 } }

/-- TV-C1. -/
theorem test_ctx_shortcut : regAfter (exec (.ctx 0) tvC1) .RESULT = some 0xFFFFFFC6 := by decide

/-- TV-C18. -/
theorem test_ctx_full_sum : regAfter (exec (.ctx 0) tvC18) .RESULT = some 0xFFFFF9EA := by decide

/-- TV-C27: the model fault UNINIT_TABLE on an unwritten table; it has no STATUS code. -/
theorem test_ctx_unwritten_faults :
    modelFaultAfter (step (State.reset.withFetchWord 32 0x00000002)) = some .uninitTable ∧
      regAfter (step (State.reset.withFetchWord 32 0x00000002)) .STATUS = some 0 := by decide

/-- R191: a reset after it discards the fault. -/
theorem test_reset_discards_model_fault :
    modelFaultAfter (Sys2Proof.core.run 2 (State.reset.setInbox [.write 0x0 0xF 0x00000002, .reset])) = none ∧
      modelFaultAfter (Sys2Proof.core.run 1 (State.reset.setInbox [.write 0x0 0xF 0x00000002, .reset])) =
        some .uninitTable := by decide

/-- TV-G4, i = 6: an interior boundary clamped to width. -/
theorem test_scoord_interior_clamp :
    regAfter (exec (.scoord 6) (withRegs [(.G_WIDTH, 3), (.G_NUMH, 8), (.G_CSHIFT, 1)])) .RESULT = some 3 := by decide

/-- TV-G12, legacy, SIDX 32767: wide products. -/
theorem test_scoord_legacy_wide :
    regAfter (exec (.scoord 32767) (withRegs [(.G_WIDTH, 0xFFFFFFFF), (.G_NUMH, 65535), (.G_CSHIFT, 7), (.CFG, 1)]))
      .RESULT = some 2147450879 := by decide

/-- TV-R9. -/
theorem test_rlt_25 : regAfter (step (State.reset.withFetchWord 32 0x00000194)) .RESULT = some 9 := by decide

/-- TV-R12. -/
theorem test_rlt_41_faults : regAfter (step (State.reset.withFetchWord 32 0x00000294)) .STATUS = some 0x00000601 := by
  decide

/-! ### Faults and bus accesses -/

/-- TV-G16: WIDTH_ZERO has priority. -/
theorem test_width_zero_first : regAfter (step (State.reset.withFetchWord 32 0x00090003)) .STATUS = some 0x00000301 := by
  decide

/-- TV-X6: while faulted, the first cause is kept. -/
theorem test_first_cause_kept :
    regAfter (step ((withRegs [(.STATUS, 0x00000401)]).withFetchWord 32 0x00000007)) .STATUS = some 0x00000401 := by
  decide

/-- TV-X7: non-CMD writes work while faulted. -/
theorem test_write_while_faulted :
    replyAfterTwo ((withRegs [(.STATUS, 0x00000401)]).setInbox [.write 0x014 0xF 5, .read 0x014 0xF]) = some 5 := by
  decide

/-- TV-X10: unused bits are RAZ/WI. -/
theorem test_cshift_masked :
    replyAfterTwo (State.reset.setInbox [.write 0x030 0xF 0xFFFFFFFF, .read 0x030 0xF]) = some 7 := by decide

/-- TV-X12: the low 16 bits are kept and sign-extended. -/
theorem test_table_entry_sign_extended :
    replyAfterTwo (State.reset.setInbox [.write 0x10014 0xF 0x0001FFFE, .read 0x10014 0xF]) = some 0xFFFFFFFE := by
  decide

/-- TV-X13: array field 5 is reserved. -/
theorem test_reserved_array :
    replyAfterTwo (State.reset.setInbox [.write 0x11400 0xF 7, .read 0x11400 0xF]) = some 0 := by decide

/-- TV-X11: a misaligned write does not execute a command. -/
theorem test_misaligned_cmd :
    regAfter (step ((withRegs [(.S_L, 5), (.S_T, 5)]).setInbox [.write 0x2 0xF 1])) .RESULT = some 0 := by decide

/-- R31: plane 3's table index is SC_QTI[14:12], and bit 3 is unused. -/
theorem test_qti_fields :
    (match step (State.reset.setInbox [.write 0x050 0xF 0x0000F0FF]) with
      | .next s => (List.range 4).map (planeTable s)
      | _ => []) = [7, 7, 0, 7] := by decide

/-! ### States and operands that meet the hypotheses of the statements -/

/-- A host's accesses, from the state after reset. -/
def host (es : List HostEvent) : State := State.reset.setInbox es

/-- The same, faulted with SLICES_ZERO. -/
def faultedHost (es : List HostEvent) : State := (withRegs [(.STATUS, 0x00000401)]).setInbox es

theorem witness_DecodeEncodeRoundTrip :
    let c := Config.default
    c.wf ∧ Instr.nop.wellFormed c = true ∧ Instr.pred.wellFormed c = true ∧ (Instr.ctx 7).wellFormed c = true ∧
      (Instr.scoord 65535).wellFormed c = true ∧ (Instr.rlt 63).wellFormed c = true := by decide

/-- At the default, and at a narrower SIDX (NSL_BITS = 4), where the bits above it are reserved (log 1). -/
theorem witness_DecodedWordIsItsEncoding :
    decode Config.default 0xFFFF0003 = .ok (.scoord 65535) ∧ decode { nslBits := 4 } 0x000F0003 = .ok (.scoord 15) ∧
      decode { nslBits := 4 } 0x00100003 = .error (.reservedBits 3) := ⟨by rfl, by rfl, by rfl⟩

theorem witness_DecodeAgreesWithOpcodeMap :
    ∃ row ∈ opcodeRows, (0x00000072 : Word) &&& row.mask = row.pattern := ⟨⟨"CTX", 0xFFFFFF8F, 2⟩, by decide, by decide⟩

theorem witness_IllegalWords :
    (IllegalWord Config.default 0x00000005 ∧ IllegalWord Config.default 0x0000000F ∧ IllegalWord Config.default 0x00000010 ∧ IllegalWord Config.default 0x80000001 ∧
      IllegalWord Config.default 0x00000082 ∧ IllegalWord Config.default 0x00000013 ∧ IllegalWord Config.default 0x00000404) ∧
    (¬ IllegalWord Config.default 0x00000000 ∧ ¬ IllegalWord Config.default 0x00000001 ∧ ¬ IllegalWord Config.default 0x00000072 ∧ ¬ IllegalWord Config.default 0xFFFF0003 ∧
      ¬ IllegalWord Config.default 0x000003F4) ∧
    (IllegalWord { nslBits := 4 } 0x00100003 ∧ ¬ IllegalWord { nslBits := 4 } 0x000F0003) ∧
    (host [.write 0x0 0xF 0x00000082]).faulted = false ∧
    (host [.write 0x0 0xF 0x00000082]).inbox = .write 0x0 0xF 0x00000082 :: [] :=
  ⟨⟨by decide, by decide, by decide, by decide, by decide, by decide, by decide⟩,
    ⟨by decide, by decide, by decide, by decide, by decide⟩, ⟨by decide, by decide⟩, by decide, by decide⟩

theorem witness_StepRunsTheDecodedCommand :
    (host [.write 0x0 0xF 0x00000194]).faulted = false ∧ decode Config.default 0x00000194 = .ok (.rlt 25) ∧
      (faultedHost [.write 0x0 0xF 0x00000194]).faulted = true ∧
      decode Config.default 0x00000005 = .error (.reservedOpcode 5) := ⟨by decide, by rfl, by decide, by rfl⟩

theorem witness_FetchWordRunsNext :
    State.reset.faulted = false ∧ State.reset.config.nslBits = 16 ∧ decodeTableWord 32 0x00000194 = some (.rlt 25) ∧
      decode State.reset.config (tableWord 32 0x00000194) = .ok (.rlt 25) := ⟨by decide, by decide, by decide, by rfl⟩

theorem witness_EventsArePerformedInOrder :
    (host [.write 0x0 0xF 4, .reset, .read 0x4 0xF]).inbox = [.write 0x0 0xF 4, .reset] ++ [.read 0x4 0xF] := by decide

theorem witness_OnlyCtxOnUnwrittenTableRaisesTheModelFault :
    let s := host [.write 0x0 0xF 0x00000002]
    s.config.wf ∧ s.modelFault = none ∧ ∃ s', step s = .next s' ∧ s'.modelFault ≠ none :=
  ⟨by decide, rfl, _, rfl, by decide⟩

/-- A faulted record, and a step of each kind from it. -/
theorem witness_OnlyResetDiscardsTheModelFault :
    ((host [.reset]).latch .uninitTable).modelFault = some .uninitTable ∧
      (∃ s', step ((host [.reset]).latch .uninitTable) = .next s') ∧
      ∃ s', step ((host [.write 0x0 0xF 1]).latch .uninitTable) = .next s' := ⟨rfl, ⟨_, rfl⟩, ⟨_, rfl⟩⟩

theorem witness_CommandsWriteResultOrStatus :
    (∃ s', exec .nop n1 = .next s') ∧ (∃ s', exec .pred n1 = .next s') ∧
      exec (.ctx 0) tvC1 = .next (tvC1.setReg .RESULT 0xFFFFFFC6) ∧
      exec (.ctx 8) n1 = .next (n1.setReg .STATUS 0x00000201) ∧
      exec (.scoord 0) n1 = .next (n1.setReg .STATUS 0x00000301) ∧
      exec (.rlt 40) n1 = .next (n1.setReg .RESULT 24) ∧ exec (.rlt 41) n1 = .next (n1.setReg .STATUS 0x00000601) :=
  ⟨⟨_, rfl⟩, ⟨_, rfl⟩, rfl, rfl, rfl, rfl, rfl⟩

theorem witness_CommandFrame :
    ∃ s', exec (.ctx 0) tvC1 = .next s' := ⟨_, rfl⟩

theorem witness_NopLeavesEverything :
    (host [.write 0x0 0xF 0]).inbox = [.write 0x0 0xF 0] ∧ (0x00000010 : Word).extractLsb' 0 4 = 0 ∧
      (0x00000010 : Word).extractLsb' 4 28 ≠ 0 ∧ (host [.write 0x0 0xF 0x10]).faulted = false := by decide

theorem witness_PredictionAndParameters : n1.config.wf ∧ n1.config.sw = 32 := by decide

theorem witness_PredDependsOnlyOnItsSamples :
    let u := (n1.setReg .S_RT 1).setReg .CFG 1
    n1 ≠ u ∧ n1.config = u.config ∧ n1.reg .S_L = u.reg .S_L ∧ n1.reg .S_T = u.reg .S_T ∧
      n1.reg .S_LT = u.reg .S_LT := by decide

theorem witness_CtxShortcutWritesTheBase :
    0 < tvC1.config.numTables ∧
      qEntry tvC1 0 0 (maskIndex tvC1.config (sample tvC1 .S_L - sample tvC1 .S_LT)) = some 2 ∧
      qEntry tvC1 0 1 (maskIndex tvC1.config (sample tvC1 .S_LT - sample tvC1 .S_T)) = some (-10) ∧
      qEntry tvC1 0 2 (maskIndex tvC1.config (sample tvC1 .S_T - sample tvC1 .S_RT)) = some (-50) ∧
      qEntry tvC1 0 3 tvC1.config.skipProbeIndex = some 0 ∧ qEntry tvC1 0 4 tvC1.config.skipProbeIndex = some 0 := by
  decide

theorem witness_CtxFullSumAddsSecondOrder :
    0 < tvC18.config.numTables ∧
      qEntry tvC18 0 0 (maskIndex tvC18.config (sample tvC18 .S_L - sample tvC18 .S_LT)) = some 2 ∧
      qEntry tvC18 0 1 (maskIndex tvC18.config (sample tvC18 .S_LT - sample tvC18 .S_T)) = some (-10) ∧
      qEntry tvC18 0 2 (maskIndex tvC18.config (sample tvC18 .S_T - sample tvC18 .S_RT)) = some (-50) ∧
      qEntry tvC18 0 3 (maskIndex tvC18.config (sample tvC18 .S_LL - sample tvC18 .S_L)) = some (-250) ∧
      qEntry tvC18 0 4 (maskIndex tvC18.config (sample tvC18 .S_TT - sample tvC18 .S_T)) = some (-1250) ∧
      qEntry tvC18 0 3 tvC18.config.skipProbeIndex = some 250 ∧
      qEntry tvC18 0 4 tvC18.config.skipProbeIndex = some 1250 := by decide

/-- TV-C26's parameters: NUM_TABLES = 2. -/
theorem witness_CtxBeyondTheTablesFaults : ({ numTables := 2 } : Config).wf ∧ ({ numTables := 2 } : Config).numTables ≤ 2 := by
  decide

/-- N1 with its first-order entries, a probe entry of array 3 that is not 0, and none of array 4. -/
def lonelyProbe : State :=
  n1.setQtab (entries [(0, 0, 5, 2), (0, 1, 246, 0xFFFFFFF6), (0, 2, 251, 0xFFFFFFCE), (0, 3, 0, 250), (0, 3, 246, 1),
    (0, 4, 243, 1)])

/-- N1 with its first-order entries, both probe entries, not 0, and the second-order entry of array 3 only. -/
def lonelySecondOrder : State :=
  n1.setQtab (entries [(0, 0, 5, 2), (0, 1, 246, 0xFFFFFFF6), (0, 2, 251, 0xFFFFFFCE), (0, 3, 0, 250), (0, 4, 0, 1250),
    (0, 3, 246, 1)])

/-- Each clause alone: an unwritten first-order entry, an unwritten probe entry beside one that is not 0, an unwritten
second-order entry; and no unwritten entry, with and without the shortcut. -/
theorem witness_CtxRaisesUninitExactlyOnUnwrittenEntries :
    (lookup State.reset 0 0 = none ∧ modelFaultAfter (exec (.ctx 0) State.reset) = some .uninitTable) ∧
    (probe lonelyProbe 0 3 = some 250 ∧ probe lonelyProbe 0 4 = none ∧
      (∀ a, a < 5 → (lookup lonelyProbe 0 a).isSome = true) ∧
      modelFaultAfter (exec (.ctx 0) lonelyProbe) = some .uninitTable) ∧
    (skip lonelySecondOrder 0 = some false ∧ lookup lonelySecondOrder 0 4 = none ∧
      (∀ a, a < 4 → (lookup lonelySecondOrder 0 a).isSome = true) ∧
      modelFaultAfter (exec (.ctx 0) lonelySecondOrder) = some .uninitTable) ∧
    (skip tvC1 0 = some true ∧ lookup tvC1 0 3 = none ∧ modelFaultAfter (exec (.ctx 0) tvC1) = none) ∧
    (skip tvC18 0 = some false ∧ modelFaultAfter (exec (.ctx 0) tvC18) = none) := by
  refine ⟨⟨by decide, by decide⟩, ⟨by decide, by decide, by decide, by decide⟩,
    ⟨by decide, by decide, by decide, by decide⟩, ⟨by decide, by decide, by decide⟩, ⟨by decide, by decide⟩⟩

/-- Two-entry arrays (IDX_BITS = 1): tables 0 and 1 installed, with Q(t,a,k) = k for a < 3. Arrays 3 and 4 are zero in
table 0; in table 1 array 3 is 7 away from the probe. SC_CTXCNT is 4. -/
def tiny : State :=
  { (withRegs [(.S_L, 1), (.SC_CTXCNT, 4)]).setQtab (entries
      [(0, 0, 0, 0), (0, 0, 1, 1), (0, 1, 0, 0), (0, 1, 1, 1), (0, 2, 0, 0), (0, 2, 1, 1),
       (0, 3, 0, 0), (0, 3, 1, 0), (0, 4, 0, 0), (0, 4, 1, 0),
       (1, 0, 0, 0), (1, 0, 1, 1), (1, 1, 0, 0), (1, 1, 1, 1), (1, 2, 0, 0), (1, 2, 1, 1),
       (1, 3, 0, 0), (1, 3, 1, 7), (1, 4, 0, 0), (1, 4, 1, 0)]) with
    config := { idxBits := 1 } }

/-- Every entry of table 0 or 1 of `tiny`, listed. -/
theorem tiny_entries : ∀ t a k, t < 2 → a < 5 → k < 2 →
    qEntry tiny t a k = some (if a < 3 then (k : Int) else if t = 1 ∧ a = 3 ∧ k = 1 then 7 else 0) := by
  intro t a k ht ha hk
  interval_cases t <;> interval_cases a <;> interval_cases k <;> decide

theorem witness_TableInstalled : tiny.config.wf ∧ 0 < tiny.config.numTables ∧ TableInstalled tiny 0 := by
  refine ⟨by decide, by decide, fun a k ha hk => ?_⟩
  rw [tiny_entries 0 a k (by norm_num) ha hk]
  rfl

theorem witness_ShortcutSound : ShortcutSound tiny 0 := by
  intro _ k hk
  exact ⟨tiny_entries 0 3 k (by norm_num) (by norm_num) hk, tiny_entries 0 4 k (by norm_num) (by norm_num) hk⟩

theorem witness_TableWellFormed : TableWellFormed tiny 0 := by
  refine ⟨witness_ShortcutSound, ?_⟩
  intro k0 k1 k2 k3 k4 q0 q1 q2 q3 q4 h0 h1 h2 h3 h4 e0 e1 e2 e3 e4
  have hs : skip tiny 0 = some true := by decide
  have hc : (tiny.reg .SC_CTXCNT).toNat = 4 := by decide
  change k0 < 2 at h0
  change k1 < 2 at h1
  change k2 < 2 at h2
  rw [tiny_entries 0 0 k0 (by norm_num) (by norm_num) h0] at e0
  rw [tiny_entries 0 1 k1 (by norm_num) (by norm_num) h1] at e1
  rw [tiny_entries 0 2 k2 (by norm_num) (by norm_num) h2] at e2
  simp at e0 e1 e2
  simp only [hs, hc, if_true]
  omega

/-- Tables 0 and 1 of `tiny`: all of arrays 0 to 2 written, both skip, and they differ in array 3. -/
theorem witness_ShortcutTablesAreInterchangeable :
    0 < tiny.config.numTables ∧ 1 < tiny.config.numTables ∧
      (∀ a k, a < 3 → k < 2 ^ tiny.config.idxBits → qEntry tiny 0 a k = qEntry tiny 1 a k) ∧
      (∀ a k, a < 3 → k < 2 ^ tiny.config.idxBits → (qEntry tiny 0 a k).isSome) ∧
      skip tiny 0 = some true ∧ skip tiny 1 = some true ∧ qEntry tiny 0 3 1 ≠ qEntry tiny 1 3 1 := by
  refine ⟨by decide, by decide, fun a k ha hk => ?_, fun a k ha hk => ?_, by decide, by decide, by decide⟩
  · rw [tiny_entries 0 a k (by norm_num) (by omega) hk, tiny_entries 1 a k (by norm_num) (by omega) hk]
    simp [ha]
  · rw [tiny_entries 0 a k (by norm_num) (by omega) hk]
    rfl

theorem witness_CtxDependsOnlyOnWhatItReads :
    let u := (tvC18.setReg .G_WIDTH 7).setQtab (tvC18.qtab.writeEntry 16 0 3 5 9)
    tvC18.config = u.config ∧ 0 < tvC18.config.numTables ∧
      (∀ r ∈ [Reg.S_LL, .S_L, .S_LT, .S_T, .S_RT, .S_TT], tvC18.reg r = u.reg r) ∧
      (∀ a, a < 5 → qEntry tvC18 0 a (maskIndex tvC18.config (difference tvC18 a)) =
        qEntry u 0 a (maskIndex tvC18.config (difference tvC18 a))) ∧
      (∀ a, a < 5 → 3 ≤ a → qEntry tvC18 0 a tvC18.config.skipProbeIndex = qEntry u 0 a tvC18.config.skipProbeIndex) ∧
      skip tvC18 0 = some false ∧ exec (.ctx 0) tvC18 = .next (tvC18.setReg .RESULT 0xFFFFF9EA) := by
  refine ⟨by decide, by decide, by decide, fun a ha => ?_, fun a ha hb => ?_, by decide, rfl⟩ <;>
    interval_cases a <;> decide

/-- A written table, and one with no entry written (logs 2 and 4). -/
theorem witness_CtxResultRange :
    (tvC1.config.wf ∧ 0 < tvC1.config.numTables ∧ exec (.ctx 0) tvC1 = .next (tvC1.setReg .RESULT 0xFFFFFFC6)) ∧
    (State.reset.config.wf ∧ 0 < State.reset.config.numTables ∧ lookup State.reset 0 0 = none ∧
      ∃ s', exec (.ctx 0) State.reset = .next s') :=
  ⟨⟨by decide, by decide, rfl⟩, by decide, by decide, by decide, _, rfl⟩

theorem witness_SkipFollowsProbeWrites :
    let s := tvC1.setInbox [.write 0x10C00 0xF 1]
    let u := tvC1.setInbox [.write 0x11000 0xF 0]
    s.config.wf ∧ s.inbox = [.write (0x10000 + 0 * 0x2000 + 3 * 0x400 + s.config.skipProbeIndex * 4) 0xF 1] ∧
      qEntry s 0 4 s.config.skipProbeIndex = some 0 ∧
      u.inbox = [.write (0x10000 + 0 * 0x2000 + 4 * 0x400 + u.config.skipProbeIndex * 4) 0xF 0] ∧
      qEntry u 0 3 u.config.skipProbeIndex = some 0 := by decide

/-- TV-G10: width 640, N 6, cs 2. -/
def tvG10 (legacy : Word) : State :=
  withRegs [(.G_WIDTH, 640), (.G_NUMH, 6), (.G_CSHIFT, 2), (.CFG, legacy)]

theorem witness_Scoord :
    (((tvG10 0).reg .CFG).toNat % 2 = 0 ∧ 0 < ((tvG10 0).reg .G_WIDTH).toNat % 2 ^ (tvG10 0).config.widthBits ∧
      0 < ((tvG10 0).reg .G_NUMH).toNat % 2 ^ (tvG10 0).config.nslBits ∧
      6 ≤ ((tvG10 0).reg .G_NUMH).toNat % 2 ^ (tvG10 0).config.nslBits) ∧
    ((tvG10 1).reg .CFG).toNat % 2 = 1 ∧
    (geomLegacy (tvG10 0) = false ∧ 0 < width (tvG10 0) ∧ 0 < numHSlices (tvG10 0)) ∧
    (geomLegacy (tvG10 1) = true ∧ 0 < width (tvG10 1) ∧ 0 < numHSlices (tvG10 1)) := by decide

theorem witness_ScoordPreconditionFaults :
    width State.reset = 0 ∧ width (withRegs [(.G_WIDTH, 10)]) ≠ 0 ∧ numHSlices (withRegs [(.G_WIDTH, 10)]) = 0 ∧
    width (tvG10 0) ≠ 0 ∧ numHSlices (tvG10 0) ≠ 0 ∧ numHSlices (tvG10 0) < 7 := by decide

/-- R140's table and R141, at the ends of the three ranges of its closed form. -/
theorem witness_RltReadsTheRom :
    exec (.rlt 0) n1 = .next (n1.setReg .RESULT 0) ∧ exec (.rlt 15) n1 = .next (n1.setReg .RESULT 3) ∧
      exec (.rlt 16) n1 = .next (n1.setReg .RESULT 4) ∧ exec (.rlt 23) n1 = .next (n1.setReg .RESULT 7) ∧
      exec (.rlt 24) n1 = .next (n1.setReg .RESULT 8) ∧ exec (.rlt 40) n1 = .next (n1.setReg .RESULT 24) := by
  refine ⟨?_, ?_, ?_, ?_, ?_, ?_⟩ <;> rfl

/-- Both alternatives of R125 (width a multiple of mpw; awidth/mpw > N/2), each without the other, and TV-G4. -/
theorem witness_InteriorBoundariesAreAligned :
    (let s := withRegs [(.G_WIDTH, 10), (.G_NUMH, 10), (.G_CSHIFT, 1)]
     2 ^ chromaShift s ∣ width s ∧ ¬ numHSlices s < 2 * ((width s + 2 ^ chromaShift s - 1) / 2 ^ chromaShift s)) ∧
    (let s := withRegs [(.G_WIDTH, 7), (.G_NUMH, 4), (.G_CSHIFT, 1)]
     ¬ 2 ^ chromaShift s ∣ width s ∧ numHSlices s < 2 * ((width s + 2 ^ chromaShift s - 1) / 2 ^ chromaShift s)) ∧
    (let s := withRegs [(.G_WIDTH, 3), (.G_NUMH, 8), (.G_CSHIFT, 1)]
     geomLegacy s = false ∧ width s = 3 ∧ numHSlices s = 8 ∧ chromaShift s = 1) := by decide

theorem witness_FiftyBitDatapathIsExact : 4294967295 < 2 ^ 32 ∧ 65535 < 2 ^ 16 ∧ 7 < 8 ∧ 65535 ≤ 65535 := by decide

theorem witness_ScoordAndRltDependOnlyOnOperands :
    let u := ((tvG10 0).setReg .S_L 3).setReg .RESULT 9
    tvG10 0 ≠ u ∧ (tvG10 0).config = u.config ∧ (tvG10 0).reg .G_WIDTH = u.reg .G_WIDTH ∧ (tvG10 0).reg .G_NUMH = u.reg .G_NUMH ∧
      (tvG10 0).reg .G_CSHIFT = u.reg .G_CSHIFT ∧ (tvG10 0).reg .CFG = u.reg .CFG := by decide

theorem witness_OnlyResetLeavesTheFaultedState :
    (faultedHost [.write 0x0 0xF 1]).faulted = true ∧ (∃ s', step (faultedHost [.write 0x0 0xF 1]) = .next s') ∧
      (faultedHost [.reset]).faulted = true ∧ ∃ s', step (faultedHost [.reset]) = .next s' :=
  ⟨by decide, ⟨_, rfl⟩, by decide, ⟨_, rfl⟩⟩

theorem witness_FaultStaysThroughARun :
    (faultedHost [.write 0x0 0xF 1, .read 0x4 0xF]).faulted = true ∧
      .reset ∉ (faultedHost [.write 0x0 0xF 1, .read 0x4 0xF]).inbox := by decide

theorem witness_RegisterMap :
    Config.default.wf ∧ (⟨0x058, .SC_MODE, true, 0x00000003⟩ : MapRow) ∈ registerMap Config.default ∧
      (⟨0x008, .STATUS, false, 0x00000F01⟩ : MapRow) ∈ registerMap Config.default ∧
      (host [.write 0x058 0xF 7]).inbox = [.write 0x058 0xF 7] ∧
      (faultedHost [.write 0x008 0xF 7]).inbox = [.write 0x008 0xF 7] ∧
      (host [.read 0x06C 0x0]).inbox = [.read 0x06C 0x0] := by decide

/-- Each clause of `NoLocation` at the ends of its range, and the locations beside them. -/
theorem witness_NoLocation :
    (∀ n ∈ [0x2, 0x34, 0x3C, 0x5C, 0x70, 0xFFFC, 0x11400, 0x11FFC, 0x1FFFC], NoLocation Config.default n) ∧
    NoLocation { numTables := 2 } 0x14000 ∧ NoLocation { idxBits := 1 } 0x10008 ∧
    (∀ n ∈ [0x30, 0x40, 0x58, 0x60, 0x6C, 0x10000, 0x113FC, 0x1F3FC], ¬ NoLocation Config.default n) ∧
    0x1FFFC < 2 ^ Config.default.addrBits ∧ (0x7 : BitVec 4) ≠ 0xF := by
  refine ⟨?_, by decide, by decide, ?_, by decide, by decide⟩ <;> decide

theorem witness_ReadsHaveNoSideEffect :
    (host [.read 0x10000 0xF]).inbox = [.read 0x10000 0xF] ∧ 0x10000 < 2 ^ (host []).config.addrBits := by decide

theorem witness_NonCommandWritesAreIdempotent :
    (0x1FFFC : Nat) ≠ 0x0 ∧ ∃ s', hostEvent (.write 0x10000 0xF 5) State.reset = .next s' :=
  ⟨by decide, _, rfl⟩

theorem witness_TableAccesses :
    EntryExists Config.default 7 4 255 ∧ EntryExists Config.default 0 0 0 ∧ Config.default.wf ∧
      (host [.write 0x1F3FC 0xF 5]).inbox =
        [.write (0x10000 + 7 * 0x2000 + 4 * 0x400 + 255 * 4) 0xF 5] ∧
      (host [.read 0x1F3FC 0xF]).inbox =
        [.read (0x10000 + 7 * 0x2000 + 4 * 0x400 + 255 * 4) 0xF] ∧
      qEntry (host []) 7 4 255 = none ∧ qEntry tvC1 0 2 251 = some (-50) ∧ tvC1.config.qw = 16 := by decide

theorem witness_WindowIsRelativeToTheBase :
    0x1FFFF < 2 ^ Config.default.addrBits ∧ 0xFFF < 0x1000 ∧ 0x1000 + 2 ^ Config.default.addrBits ≤ 0x21000 ∧
      2 ^ (host []).config.addrBits ≤ 0x20000 ∧ (host [.read 0x20000 0xF]).inbox = [.read 0x20000 0xF] := by decide

theorem witness_SliceContextFields :
    (host []).config.wf ∧ 3 < (host []).config.maxPlanes ∧ (host [.write 0x50 0xF 5]).inbox = [.write 0x50 0xF 5] ∧ (host [.write 0x58 0xF 1]).inbox = [.write 0x58 0xF 1] := by
  decide

theorem witness_CommandsNeverReadTheSliceContext : Reg.SC_RCT3 ∈ sliceContextRegs := by decide

theorem witness_Reset : (faultedHost [.reset]).inbox = [.reset] := by decide

/-- A faulted state that has the invariant, and a step from it that goes on. -/
theorem witness_StepKeepsTheInvariant :
    Inv (faultedHost [.write 0x0 0xF 1]) ∧ ∃ s', step (faultedHost [.write 0x0 0xF 1]) = .next s' := by
  refine ⟨⟨by decide, List.Pairwise.nil, ?_, fun _ _ _ _ => rfl, ?_, ?_, by decide⟩, _, rfl⟩
  · intro c h
    cases h
  · intro t a k e _ h
    cases h
  · intro r
    cases r <;> decide

theorem witness_StepKeepsTheParameters : ∃ s', step (host [.write 0x0 0xF 1]) = .next s' := ⟨_, rfl⟩

theorem witness_ResetForgetsTheStateBefore :
    let s := faultedHost [.reset, .write 0x0 0xF 4]
    let u := (host [.reset, .write 0x0 0xF 4]).latch .uninitTable
    s ≠ u ∧ s.inbox = [.reset, .write 0x0 0xF 4] ∧ u.inbox = [.reset, .write 0x0 0xF 4] ∧ s.config = u.config ∧
      s.replies = u.replies ∧ s.draws = u.draws ∧ s.stream = u.stream := by decide

/-- Two instances, at 0 and at 0x20000, the second with NUM_TABLES = 2. -/
def pair (es : List PlatformEvent) : System :=
  System.atReset [(0, Config.default), (0x20000, { numTables := 2 })] es

/-- STATUS of each instance after `k` steps of a system. -/
def statusesAfter (k : Nat) (y : System) : List Word :=
  match systemRun k y with
  | .next y' => y'.instances.map (fun i => i.core.reg .STATUS)
  | _ => []

/-- R172: a command reaches the instance its address is in (CTX 5 faults with two tables; RLT 41 faults), and a fault is of
one instance alone. -/
theorem test_access_reaches_one_instance :
    statusesAfter 1 (pair [.write 0x20000 0xF 0x00000052]) = [0, 0x00000201] ∧
      statusesAfter 1 (pair [.write 0x0 0xF 0x00000294]) = [0x00000601, 0] := by decide

/-- R172: the instances leave reset together or apart. -/
theorem test_resets_together_or_apart :
    statusesAfter 3 (pair [.write 0x0 0xF 5, .write 0x20000 0xF 5, .reset [0]]) = [0, 0x00000101] ∧
      statusesAfter 3 (pair [.write 0x0 0xF 5, .write 0x20000 0xF 5, .reset [0, 1]]) = [0, 0] := by decide

/-- A system with two instances that are apart, an address at each end of the second window, and a step. -/
theorem witness_InstancesShareNothing :
    let y := pair [.write 0x3FFFC 0xF 5, .reset [1]]
    y.wf ∧ (y.instances.map (·.base)) = [0, 0x20000] ∧
      windowAddr { numTables := 2 } 0x20000 0x20000 = some 0 ∧
      windowAddr { numTables := 2 } 0x20000 0x3FFFF = some 0x1FFFF ∧
      windowAddr { numTables := 2 } 0x20000 0x1FFFF = none ∧ windowAddr { numTables := 2 } 0x20000 0x40000 = none ∧
      ∃ y', systemStep y = .next y' :=
  ⟨by decide, by decide, by decide, by decide, by decide, by decide, _, rfl⟩

theorem witness_LatencyChangesNothing : ∃ s', step (host [.write 0x0 0xF 1]) = .next s' := ⟨_, rfl⟩

end Sys2Proof.Tests
end

namespace Sys2Proof.Machine

/-! ### The decoder (30_encoding.md R71 to R79) -/

/-- The bits of a word that decodes to a command: its opcode, its reserved bits, its field. -/
def DecodesTo (c : Config) (w : Word) : Instr → Prop
  | .nop => bits w 3 0 = 0 ∧ bits w 31 4 = 0
  | .pred => bits w 3 0 = 1 ∧ bits w 31 4 = 0
  | .ctx t => bits w 3 0 = 2 ∧ bits w 31 7 = 0 ∧ bits w 6 4 = t
  | .scoord n => bits w 3 0 = 3 ∧ bits w 15 4 = 0 ∧ bits w 31 16 < 2 ^ c.nslBits ∧ bits w 31 16 = n
  | .rlt k => bits w 3 0 = 4 ∧ bits w 31 10 = 0 ∧ bits w 9 4 = k

/-- Everything `decode` can answer: a command whose bits the word has, or a refusal of an illegal word. -/
theorem decode_cases (c : Config) (w : Word) :
    (∃ i, decode c w = .ok i ∧ DecodesTo c w i) ∨ ((∃ e, decode c w = .error e) ∧ IllegalWord c w) := by
  simp only [decode]
  split_ifs with h0 h1 h2 h3 h4 h5
  · exact .inl ⟨.nop, rfl, h0⟩
  · exact .inl ⟨.pred, rfl, h1⟩
  · exact .inl ⟨.ctx _, rfl, h2.1, h2.2, rfl⟩
  · exact .inl ⟨.scoord _, rfl, h3.1, h3.2.1, h3.2.2, rfl⟩
  · exact .inl ⟨.rlt _, rfl, h4.1, h4.2, rfl⟩
  · exact .inr ⟨⟨_, rfl⟩, by simp only [IllegalWord]; omega⟩
  · exact .inr ⟨⟨_, rfl⟩, .inl (by omega)⟩

/-- A word with the bits of a command is no illegal word (R77). -/
theorem DecodesTo.not_illegalWord {c : Config} {w : Word} {i : Instr} (h : DecodesTo c w i) : ¬ IllegalWord c w := by
  cases i <;> simp only [DecodesTo, IllegalWord] at h ⊢ <;> omega

/-- A word with the bits of a command decodes to it (R78). -/
theorem DecodesTo.decode_eq_ok {c : Config} {w : Word} {i : Instr} (h : DecodesTo c w i) : decode c w = .ok i := by
  cases i with
  | nop => simp [decode, h.1, h.2]
  | pred => simp [decode, h.1, h.2]
  | ctx t => obtain ⟨hop, hres, rfl⟩ := h; simp [decode, hop, hres]
  | scoord n => obtain ⟨hop, hres, hn, rfl⟩ := h; simp [decode, hop, hres, hn]
  | rlt k => obtain ⟨hop, hres, rfl⟩ := h; simp [decode, hop, hres]

/-- `decode` answers a command exactly on the words with its bits (R78). -/
theorem decode_eq_ok_iff {c : Config} {w : Word} {i : Instr} : decode c w = .ok i ↔ DecodesTo c w i := by
  refine ⟨fun h => ?_, DecodesTo.decode_eq_ok⟩
  rcases decode_cases c w with ⟨j, hd, hj⟩ | ⟨⟨e, hd⟩, -⟩
  · cases hd.symm.trans h
    exact hj
  · cases hd.symm.trans h

/-- `decode` refuses exactly the illegal words (R77). -/
theorem decode_eq_error_iff {c : Config} {w : Word} : (∃ e, decode c w = .error e) ↔ IllegalWord c w := by
  rcases decode_cases c w with ⟨i, hd, hi⟩ | ⟨he, hw⟩
  · simp only [hd, reduceCtorEq, exists_false, false_iff]
    exact hi.not_illegalWord
  · exact iff_of_true he hw

/-- The number a command encodes to: its opcode, and its field above it (R79). -/
def encodeNat : Instr → Nat
  | .nop => 0
  | .pred => 1
  | .ctx t => t * 2 ^ 4 + 2
  | .scoord n => n * 2 ^ 16 + 3
  | .rlt k => k * 2 ^ 4 + 4

/-- A command is encoded in the 32 bits of a word. -/
theorem encode_eq_ofNat (i : Instr) : encode i = BitVec.ofNat 32 (encodeNat i) := by
  cases i <;> rfl

/-- SIDX has at most 16 bits (R6, R72). -/
theorem sidx_lt {c : Config} (hc : c.wf) {n : Nat} (hn : n < 2 ^ c.nslBits) : n < 65536 := by
  obtain ⟨-, -, -, -, -, -, ⟨-, h16⟩, -⟩ := hc
  exact lt_of_lt_of_le hn (Nat.pow_le_pow_right (by norm_num) h16)

/-- A word has the bits of a command exactly when the command is well-formed and is encoded in it, without loss. -/
theorem decodesTo_iff {c : Config} {w : Word} {i : Instr} :
    DecodesTo c w i ↔ i.wellFormed c = true ∧ w.toNat = encodeNat i := by
  have hw := w.isLt
  cases i <;> simp only [DecodesTo, Instr.wellFormed, encodeNat, bits, decide_eq_true_eq] <;> norm_num <;> omega

/-- The encoding of a well-formed command fits a word (R79). -/
theorem encodeNat_lt {c : Config} {i : Instr} (hc : c.wf) (h : i.wellFormed c = true) : encodeNat i < 2 ^ 32 := by
  cases i with
  | scoord n =>
    have := sidx_lt hc (by simpa [Instr.wellFormed] using h)
    simp only [encodeNat]
    omega
  | _ => simp only [Instr.wellFormed, decide_eq_true_eq, encodeNat] at h ⊢; omega

/-- Decoding the encoding of a well-formed command gives it back (R78, R79). -/
theorem decode_encode {c : Config} {i : Instr} (hc : c.wf) (h : i.wellFormed c = true) :
    decode c (encode i) = .ok i := by
  have hlt := encodeNat_lt hc h
  refine decode_eq_ok_iff.2 (decodesTo_iff.2 ⟨h, ?_⟩)
  rw [encode_eq_ofNat, BitVec.toNat_ofNat, Nat.mod_eq_of_lt hlt]

/-- A word is the word of its four bytes (R52). -/
theorem wordOfBytes_leByte (w : Word) :
    wordOfBytes (leByte w 0) (leByte w 1) (leByte w 2) (leByte w 3) = w := by
  have hw := w.isLt
  apply BitVec.eq_of_toNat_eq
  simp only [wordOfBytes, leByte, BitVec.toNat_ofNat]
  norm_num
  omega

/-- Decoding the bytes of an encoded command decodes its word, and leaves the bytes that follow (R52, R70). -/
theorem decodeBytes_encodeBytes (c : Config) (i : Instr) (rest : List Byte) :
    decodeBytes c (encodeBytes i ++ rest) = (decode c (encode i)).map (·, rest) := by
  simp only [encodeBytes, List.cons_append, List.nil_append, decodeBytes, wordOfBytes_leByte]

/-- Settles O2: the bits of an encoded command are those the decoder reads, and its bytes are those of its word. -/
theorem decodeEncodeRoundTrip : Obligations.DecodeEncodeRoundTrip := by
  intro c i hc hi
  have hd := decode_encode hc hi
  exact ⟨hd, fun rest => by rw [decodeBytes_encodeBytes, hd]; rfl⟩

/-- Settles O3: the bits a decoded word has are those of its command's encoding. -/
theorem decodedWordIsItsEncoding : Obligations.DecodedWordIsItsEncoding := by
  intro c w i h
  obtain ⟨hi, hw⟩ := decodesTo_iff.1 (decode_eq_ok_iff.1 h)
  exact ⟨hi, by rw [encode_eq_ofNat, ← hw, BitVec.ofNat_toNat, BitVec.setWidth_eq]⟩

/-! ### Steps with a given access pending -/

/-- A step with a write of `w` to CMD pending executes `w` (R51, R151). -/
theorem step_write_cmd {s : State} {w : Word} {rest : List HostEvent} (h : s.inbox = .write 0x0 0xF w :: rest) :
    step s = execute w (s.setInbox rest) :=
  (step_event h).trans (busWrite_cmd w _)

/-- An unfaulted PXC answers an illegal word with ILLEGAL_CMD (R77, R161). -/
theorem execute_illegalWord {s : State} {w : Word} (hf : s.faulted = false) (hw : IllegalWord s.config w) :
    execute w s = raiseFault .illegalCmd s := by
  obtain ⟨e, he⟩ := decode_eq_error_iff.2 hw
  simp only [execute, hf, he, Bool.false_eq_true, if_false]

/-- Settles O5: the decoder refuses exactly the illegal words, and executing one writes STATUS alone. -/
theorem illegalWordsFaultAndChangeOnlyStatus : Obligations.IllegalWordsFaultAndChangeOnlyStatus := by
  refine ⟨fun c w => decode_eq_error_iff, fun s w rest hw hf hi => ?_⟩
  have hx : execute w (s.setInbox rest) = raiseFault .illegalCmd (s.setInbox rest) := execute_illegalWord hf hw
  rw [step_write_cmd hi, hx]
  rfl

end Sys2Proof.Machine

namespace Sys2Proof.Machine

/-! ### The median (40_predictor.md R90) -/

/-- The middle of three values is one of them, with the other two on either side of it (R8). -/
theorem median3_cases (a b c : Int) :
    (median3 a b c = a ∧ (b ≤ a ∧ a ≤ c ∨ c ≤ a ∧ a ≤ b)) ∨
    (median3 a b c = b ∧ (a ≤ b ∧ b ≤ c ∨ c ≤ b ∧ b ≤ a)) ∨
    (median3 a b c = c ∧ (a ≤ c ∧ c ≤ b ∨ b ≤ c ∧ c ≤ a)) := by
  simp only [median3]
  omega

/-- Two of three listed values have a property when all but one do. -/
theorem two_le_countP {p : Int → Bool} {a b c : Int} (h : p a ∧ p b ∨ p a ∧ p c ∨ p b ∧ p c) :
    2 ≤ [a, b, c].countP p := by
  rcases h with ⟨h1, h2⟩ | ⟨h1, h2⟩ | ⟨h1, h2⟩ <;> simp only [List.countP_cons, List.countP_nil, h1, h2] <;> simp

/-- At least two of three values are not above their median, and at least two are not below it (R8). -/
theorem two_le_countP_median3 (a b c : Int) :
    2 ≤ [a, b, c].countP (fun x => decide (x ≤ median3 a b c)) ∧
      2 ≤ [a, b, c].countP (fun x => decide (median3 a b c ≤ x)) := by
  constructor <;> apply two_le_countP <;> simp only [decide_eq_true_eq] <;>
    rcases median3_cases a b c with h | h | h <;> omega

/-- Settles O14: PRED writes `median3` of L, the gradient and T, which has the properties that make it the median. -/
theorem predWritesTheMedian : Obligations.PredWritesTheMedian := by
  intro s L T LT G
  refine ⟨⟨median3 L G T, execPred_eq s, ?_, two_le_countP_median3 L G T⟩, fun h => ?_⟩
  · rcases median3_cases L G T with ⟨h, -⟩ | ⟨h, -⟩ | ⟨h, -⟩ <;> simp [h]
  · have hs : ∀ r, sample s r = (s.reg r).toInt := fun r => by rw [sample, h, sextN_32]
    exact ⟨hs .S_L, hs .S_T, hs .S_LT⟩

/-! ### Register accesses (10_state.md R20) -/

/-- A step with a write of all four bytes to a register pending writes the register (R51, R152). -/
theorem step_write_reg {s : State} (hw : s.config.wf) {r : Reg} {v : Word} {rest : List HostEvent}
    (h : s.inbox = .write r.offset 0xF v :: rest) : step s = .next (writeReg r v (s.setInbox rest)) := by
  simp only [step_event h, hostEvent, busWrite, setInbox_config, locate_reg hw, writeLoc]
  rfl

/-- A step with a read of a register pending hands back the register, whatever the byte enables (R51, R153). -/
theorem step_read_reg {s : State} (hw : s.config.wf) {r : Reg} {be : BitVec 4} {rest : List HostEvent}
    (h : s.inbox = .read r.offset be :: rest) :
    step s = .next ((s.setInbox rest).reply (s.reg r &&& r.mask s.config)) := by
  simp only [step_event h, hostEvent, busRead, setInbox_config, locate_reg hw, readReg, reg_setInbox]

/-- A step with a read of CMD pending hands back 0 (R26). -/
theorem step_read_cmd {s : State} {be : BitVec 4} {rest : List HostEvent} (h : s.inbox = .read cmdOffset be :: rest) :
    step s = .next ((s.setInbox rest).reply 0) := by
  simp only [step_event h, hostEvent, busRead, locate_cmd]

/-- A write to an RW register sets the bits it uses (R152). -/
theorem writeReg_of_writable {r : Reg} (h : r.writable = true) (v : Word) (s : State) :
    writeReg r v s = s.setReg r (v &&& r.mask s.config) :=
  if_pos h

/-- A write to an RO register changes nothing (R152). -/
theorem writeReg_of_not_writable {r : Reg} (h : r.writable = false) (v : Word) (s : State) : writeReg r v s = s :=
  if_neg (by simp [h])

/-- Settles O42: a row's offset reaches its register, and the bus masks with the row's used bits. -/
theorem registerWriteSetsTheUsedBits : Obligations.RegisterWriteSetsTheUsedBits := by
  refine ⟨fun s v rest hw row hrow hi => ?_, by decide⟩
  obtain ⟨ho, hrw, hu⟩ := registerMap_row hw row hrow
  rw [step_write_reg hw (ho ▸ hi), hrw, hu]
  exact ⟨fun h => by rw [writeReg_of_writable h]; rfl, fun h => by rw [writeReg_of_not_writable h]⟩

/-- Settles O43: a row's offset reaches its register, and CMD holds no state. -/
theorem registerReadReturnsTheUsedBits : Obligations.RegisterReadReturnsTheUsedBits := by
  refine fun s be rest hw => ⟨fun row hrow hi => ?_, fun hi => step_read_cmd hi⟩
  obtain ⟨ho, -, hu⟩ := registerMap_row hw row hrow
  rw [step_read_reg hw (ho ▸ hi), hu]

/-! ### SliceContext fields (10_state.md R31, R33) -/

/-- `w[hi:lo]` of R7 is the bit field from `lo` on. -/
theorem bits_eq_toNat_extractLsb' (w : Word) (lo n : Nat) : bits w (lo + n) lo = (w.extractLsb' lo (n + 1)).toNat := by
  rw [BitVec.extractLsb'_toNat, Nat.shiftRight_eq_div_pow, bits, Nat.add_sub_cancel_left]

/-- Every bit of an existing plane's index is used in SC_QTI (R31). -/
theorem extractLsb'_planesMask {n p : Nat} (hn : n ≤ 4) (hp : p < n) :
    (planesMask n).extractLsb' (4 * p) 3 = BitVec.allOnes 3 := by
  interval_cases n <;> interval_cases p <;> decide

/-- The index of an existing plane after a write of `v` to SC_QTI (R31). -/
theorem planeTable_setReg {s : State} (hw : s.config.wf) (v : Word) {p : Nat} (hp : p < s.config.maxPlanes) :
    planeTable (s.setReg .SC_QTI (v &&& planesMask s.config.maxPlanes)) p = (v.extractLsb' (4 * p) 3).toNat := by
  obtain ⟨-, -, -, -, -, -, -, -, ⟨-, h4⟩, -⟩ := hw
  rw [planeTable, reg_setReg_same, bits_eq_toNat_extractLsb', BitVec.extractLsb'_and, extractLsb'_planesMask h4 hp,
    BitVec.and_allOnes]

/-- CODING_MODE is bit 0 of SC_MODE (R33). -/
theorem codingMode_eq_golomb_iff (s : State) : codingMode s = .golomb ↔ (s.reg .SC_MODE).getLsbD 0 = true := by
  simp [codingMode]

/-- Settles O50: a step writes the used bits of SC_QTI and SC_MODE, and the fields lie in them. -/
theorem sliceContextFields : Obligations.SliceContextFields := by
  refine fun s v rest hw => ⟨fun hi => ⟨_, step_write_reg (r := .SC_QTI) hw hi, fun p hp => ?_⟩,
    fun hi => ⟨_, step_write_reg (r := .SC_MODE) hw hi, ?_⟩⟩
  · rw [writeReg_of_writable rfl]
    exact planeTable_setReg (s := s.setInbox rest) hw v hp
  · rw [writeReg_of_writable rfl, codingMode_eq_golomb_iff, resetContexts, reg_setReg_same]
    simp [Reg.mask]

/-! ### SCOORD (42_slice_geometry.md R120) -/

/-- GEOM_LEGACY is the lowest bit of CFG (R29). -/
theorem geomLegacy_eq (s : State) : geomLegacy s = decide ((s.reg .CFG).toNat % 2 = 1) := by
  simp [geomLegacy, BitVec.getLsbD, Nat.testBit_zero]

/-- With the preconditions of R120 met, SCOORD completes with the boundary of the selected algorithm (R129). -/
theorem execScoord_completes {s : State} {i : Nat} (hw : 0 < width s) (hn : 0 < numHSlices s)
    (hi : i ≤ numHSlices s) :
    exec (.scoord i) s = .next (s.setReg .RESULT (BitVec.ofNat 32
      (if geomLegacy s then legacyBoundary (width s) (numHSlices s) i
        else currentBoundary (width s) (numHSlices s) (chromaShift s) i))) := by
  rcases execScoord_cases i s with ⟨h, -⟩ | ⟨-, h, -⟩ | ⟨-, -, h, -⟩ | ⟨-, -, -, hl, e⟩ | ⟨-, -, -, hl, e⟩
  · omega
  · omega
  · omega
  · rw [e, if_pos hl]
  · rw [e, if_neg (by simp [hl])]

/-- Settles O28: the operands of the statement are the model's, and so is its formula. -/
theorem scoordCurrentAlgorithm : Obligations.ScoordCurrentAlgorithm := by
  intro s i width N mpw awidth b hcfg hw hn hi
  have hl : ¬ geomLegacy s = true := by simp [geomLegacy_eq, hcfg]
  rw [execScoord_completes hw hn hi, if_neg hl]
  rfl

/-- Settles O29: the operands of the statement are the model's, and so is its formula. -/
theorem scoordLegacyAlgorithm : Obligations.ScoordLegacyAlgorithm := by
  intro s i width N hcfg hw hn hi
  have hl : geomLegacy s = true := by simp [geomLegacy_eq, hcfg]
  rw [execScoord_completes hw hn hi, if_pos hl]
  rfl

/-! ### The parameters (00_scope.md R6) -/

/-- Settles O55: an event keeps the parameters, and so does a step with none pending. -/
theorem stepKeepsTheParameters : Obligations.StepKeepsTheParameters := by
  refine ⟨fun s s' h => ?_, rfl⟩
  cases hi : s.inbox with
  | nil => cases (step_idle hi).symm.trans h; rfl
  | cons e rest => exact (hostEvent_keeps ((step_event hi).symm.trans h)).1

end Sys2Proof.Machine

namespace Sys2Proof.Machine

/-! ### CMD_LATENCY (00_scope.md R6, R196) -/

section Latency

variable (s : State) (n : Option Nat)

@[simp] theorem withLatency_setReg (r : Reg) (v : Word) :
    (s.withLatency n).setReg r v = (s.setReg r v).withLatency n := by
  cases r <;> rfl

@[simp] theorem withLatency_setInbox (es : List HostEvent) :
    (s.withLatency n).setInbox es = (s.setInbox es).withLatency n := rfl

@[simp] theorem reg_withLatency (r : Reg) : (s.withLatency n).reg r = s.reg r := by
  cases r <;> rfl

@[simp] theorem mask_withLatency (r : Reg) : r.mask (s.withLatency n).config = r.mask s.config := by
  cases r <;> rfl

@[simp] theorem faulted_withLatency : (s.withLatency n).faulted = s.faulted := rfl
@[simp] theorem decode_withLatency (w : Word) : decode (s.withLatency n).config w = decode s.config w := rfl
@[simp] theorem locate_withLatency (a : Nat) : locate (s.withLatency n).config a = locate s.config a := rfl
@[simp] theorem qEntry_withLatency (t a k : Nat) : qEntry (s.withLatency n) t a k = qEntry s t a k := rfl

/-- The outcome `o` on a machine whose CMD_LATENCY is `n`. -/
def outcomeWithLatency (n : Option Nat) (o : Outcome) : Outcome :=
  andThen o (fun s => .next (s.withLatency n))

@[simp] theorem outcomeWithLatency_next : outcomeWithLatency n (.next s) = .next (s.withLatency n) := rfl

/-- A fault does not depend on CMD_LATENCY. -/
theorem raiseFault_withLatency (c : FaultCause) :
    raiseFault c (s.withLatency n) = outcomeWithLatency n (raiseFault c s) := rfl

/-- No command depends on CMD_LATENCY: its operands and its tests do not project that field, so its branches are the
same ones on both sides. -/
theorem exec_withLatency (i : Instr) : exec i (s.withLatency n) = outcomeWithLatency n (exec i s) := by
  cases i with
  | nop => rfl
  | pred => rfl
  | ctx t =>
    simp only [exec, execCtx, apply_ite (outcomeWithLatency n)]
    rfl
  | scoord k =>
    simp only [exec, execScoord, apply_ite (outcomeWithLatency n)]
    rfl
  | rlt c =>
    simp only [exec, execRlt]
    split <;> rfl

/-- No write to CMD depends on CMD_LATENCY. -/
theorem execute_withLatency (w : Word) : execute w (s.withLatency n) = outcomeWithLatency n (execute w s) := by
  simp only [execute, faulted_withLatency, decode_withLatency, exec_withLatency, raiseFault_withLatency]
  split
  · rfl
  · split <;> rfl

/-- No write to another location depends on CMD_LATENCY. -/
theorem writeLoc_withLatency (l : Loc) (v : Word) : writeLoc l v (s.withLatency n) = (writeLoc l v s).withLatency n := by
  cases l with
  | reg r =>
    simp only [writeLoc, writeReg, mask_withLatency, withLatency_setReg]
    split <;> rfl
  | _ => rfl

/-- No bus read depends on CMD_LATENCY, given the free values (log 4). -/
theorem busRead_withLatency (a : Nat) : busRead a (s.withLatency n) = (busRead a s).withLatency n := by
  simp only [busRead, locate_withLatency, readReg, reg_withLatency, mask_withLatency, qEntry_withLatency]
  split
  · rfl
  · rfl
  · split <;> rfl
  · rfl
  · rfl

/-- No event depends on CMD_LATENCY. -/
theorem hostEvent_withLatency (e : HostEvent) :
    hostEvent e (s.withLatency n) = outcomeWithLatency n (hostEvent e s) := by
  cases e with
  | read a be => exact congrArg _ (busRead_withLatency s n a)
  | write a be v =>
    simp only [hostEvent, busWrite, locate_withLatency, execute_withLatency, writeLoc_withLatency]
    split
    · rfl
    · split <;> rfl
  | reset => rfl

/-- No step depends on CMD_LATENCY. -/
theorem step_withLatency : step (s.withLatency n) = outcomeWithLatency n (step s) := by
  cases hi : s.inbox with
  | nil => rw [step_idle hi, step_idle (show (s.withLatency n).inbox = [] from hi), outcomeWithLatency_next]
  | cons e rest =>
    rw [step_event hi, step_event (show (s.withLatency n).inbox = e :: rest from hi), withLatency_setInbox,
      hostEvent_withLatency]

end Latency

/-- Settles O59: a step commutes with a change of CMD_LATENCY. -/
theorem latencyChangesNothing : Obligations.LatencyChangesNothing := by
  intro s s' n h
  rw [step_withLatency, h, outcomeWithLatency_next]

/-! ### Several instances (60_exceptions.md R172) -/

/-- A run of the system of one more step. -/
theorem systemRun_succ {k : Nat} {y y' : System} (h : systemStep y = .next y') :
    systemRun (k + 1) y = systemRun k y' := by
  rw [systemRun, h, andThen_next]

/-- A run of a system goes on, and its instances are each what their own events make of them (R172). -/
theorem systemRun_next (es rest : List PlatformEvent) (is : List Instance) :
    ∃ is', systemRun es.length ⟨is, es ++ rest⟩ = .next ⟨is', rest⟩ ∧ is'.length = is.length ∧
      ∀ (n : Nat) (i : Instance), is[n]? = some i →
        ∃ s', is'[n]? = some ⟨i.base, s'⟩ ∧
          performAll (eventsFor i.core.config i.base n es) i.core = .next s' := by
  induction es generalizing is with
  | nil => exact ⟨is, rfl, rfl, fun n i hi => ⟨i.core, hi, rfl⟩⟩
  | cons e es ih =>
    obtain ⟨js, hd, hjlen, hj⟩ := deliver_next e 0 is
    obtain ⟨ks, hrun, hklen, hk⟩ := ih js
    refine ⟨ks, (systemRun_succ (systemStep_event hd)).trans hrun, hklen.trans hjlen, fun n i hi => ?_⟩
    obtain ⟨u, hu, hev, hcfg, -⟩ := hj n i hi
    obtain ⟨s', hs', hes⟩ := hk n _ hu
    rw [Nat.zero_add] at hev
    refine ⟨s', hs', ?_⟩
    rw [eventsFor_cons, performAll_append hev, ← hcfg]
    exact hes

/-- An address of the window is seen at its offset from the base (R57). -/
theorem windowAddr_of_mem {c : Config} {base addr : Nat} (h1 : base ≤ addr) (h2 : addr < base + 2 ^ c.addrBits) :
    windowAddr c base addr = some (addr - base) :=
  if_pos ⟨h1, h2⟩

/-- An address outside the window is not seen (R50). -/
theorem windowAddr_of_not_mem {c : Config} {base addr : Nat} (h : addr < base ∨ base + 2 ^ c.addrBits ≤ addr) :
    windowAddr c base addr = none :=
  if_neg (by omega)

/-- An address that is seen lies in the window (R50, R57). -/
theorem mem_window_of_isSome {c : Config} {base addr : Nat} (h : (windowAddr c base addr).isSome) :
    base ≤ addr ∧ addr < base + 2 ^ c.addrBits := by
  by_contra hn
  rw [windowAddr_of_not_mem (by omega)] at h
  cases h

/-- Instances that are apart see no address in common (R172). -/
theorem Instance.apart.not_both_see {i j : Instance} (h : i.apart j) {addr : Nat}
    (hi : (windowAddr i.core.config i.base addr).isSome) (hj : (windowAddr j.core.config j.base addr).isSome) : False := by
  have h1 := mem_window_of_isSome hi
  have h2 := mem_window_of_isSome hj
  obtain ⟨hw, -⟩ := h
  omega

/-- In a system whose instances are apart, an address reaches at most one of them (R172). -/
theorem System.wf.place_unique {y : System} (hy : y.wf) {n m addr : Nat} {i j : Instance}
    (hn : y.instances[n]? = some i) (hm : y.instances[m]? = some j)
    (hi : (windowAddr i.core.config i.base addr).isSome) (hj : (windowAddr j.core.config j.base addr).isSome) :
    n = m := by
  obtain ⟨hn', rfl⟩ := List.getElem?_eq_some_iff.1 hn
  obtain ⟨hm', rfl⟩ := List.getElem?_eq_some_iff.1 hm
  have hp := List.pairwise_iff_getElem.1 hy
  rcases Nat.lt_trichotomy n m with h | h | h
  · exact ((hp n m hn' hm' h).not_both_see hi hj).elim
  · exact h
  · exact ((hp m n hm' hn' h).not_both_see hj hi).elim

/-- An event keeps instances apart: it changes no base, no parameter and no stream. -/
theorem pairwise_apart_deliver {e : PlatformEvent} {is js : List Instance} (h : is.Pairwise Instance.apart)
    (hd : deliver e 0 is = .next js) : js.Pairwise Instance.apart := by
  obtain ⟨ks, hk, hlen, hpt⟩ := deliver_next e 0 is
  cases hk.symm.trans hd
  have hkeep : ∀ n (hn : n < is.length) (hn' : n < js.length), js[n].base = is[n].base ∧
      js[n].core.config = is[n].core.config ∧ js[n].core.stream = is[n].core.stream := by
    intro n hn hn'
    obtain ⟨u, hu, -, hc, hs⟩ := hpt n _ (List.getElem?_eq_getElem hn)
    have hj : js[n] = ⟨is[n].base, u⟩ := (List.getElem?_eq_some_iff.1 hu).2
    simp only [hj, hc, hs, and_self]
  rw [List.pairwise_iff_getElem] at h ⊢
  intro n m hn hm hnm
  obtain ⟨bn, cn, sn⟩ := hkeep n (hlen ▸ hn) hn
  obtain ⟨bm, cm, sm⟩ := hkeep m (hlen ▸ hm) hm
  simpa only [Instance.apart, bn, cn, sn, bm, cm, sm] using h n m (hlen ▸ hn) (hlen ▸ hm) hnm

/-- A step of the system keeps its instances apart. -/
theorem systemStep_keeps_wf {y y' : System} (hy : y.wf) (h : systemStep y = .next y') : y'.wf := by
  obtain ⟨is, pending⟩ := y
  cases pending with
  | nil => cases h; exact hy
  | cons e rest =>
    obtain ⟨js, hd, -⟩ := deliver_next e 0 is
    cases (systemStep_event hd).symm.trans h
    exact pairwise_apart_deliver hy hd

/-- Settles O60, from the run of a system and from which events each of its instances sees. -/
theorem instancesShareNothing : Obligations.InstancesShareNothing := by
  refine ⟨systemRun_next, fun c base n addr be v => ⟨fun h1 h2 => ?_, fun h => ?_⟩,
    fun c base n which => ⟨fun h => if_pos h, fun h => if_neg h⟩,
    fun y n m addr i j hy hn hm hi hj => System.wf.place_unique hy hn hm hi hj, fun y y' => systemStep_keeps_wf⟩
  · simp only [localEvent, windowAddr_of_mem h1 h2, Option.map_some, and_self]
  · simp only [localEvent, windowAddr_of_not_mem h, Option.map_none, and_self]

end Sys2Proof.Machine

namespace Sys2Proof.Machine

/-! ### The invariant -/

/-- A state that agrees with one that has the invariant on all it speaks of has it too. -/
theorem Inv.of_eq {s u : State} (h : Inv s) (hr : ∀ r, u.reg r = s.reg r) (hq : u.qtab = s.qtab)
    (hc : u.config = s.config) : Inv u where
  config_wf := hc ▸ h.config_wf
  table_canonical := hq ▸ h.table_canonical
  table_bytes := by rw [hq, hc]; exact h.table_bytes
  entry_whole := by rw [hq, hc]; exact h.entry_whole
  entry_width := by rw [hq, hc]; exact h.entry_width
  unused_zero r := by rw [hr, hc]; exact h.unused_zero r
  status_form := by rw [hr]; exact h.status_form

/-- A state whose registers are 0 and whose tables are unwritten has the invariant (R190). -/
theorem Inv.of_cleared {s : State} (hw : s.config.wf) (hr : ∀ r, s.reg r = 0) (hq : s.qtab = []) : Inv s where
  config_wf := hw
  table_canonical := by rw [hq]; exact List.Pairwise.nil
  table_bytes := by simp [hq]
  entry_whole _ _ _ _ := by rw [hq]; rfl
  entry_width _ _ _ _ _ he := by rw [hq] at he; cases he
  unused_zero r := by rw [hr]; exact BitVec.zero_and
  status_form := .inl (hr .STATUS)

/-- A register write keeps the invariant if the value has no unused bit and, in STATUS, one of its forms. -/
theorem Inv.setReg {s : State} (h : Inv s) {r : Reg} {v : Word} (hv : v &&& ~~~(r.mask s.config) = 0)
    (hs : r = .STATUS → StatusForm v) : Inv (s.setReg r v) where
  config_wf := by rw [setReg_config]; exact h.config_wf
  table_canonical := by rw [setReg_qtab]; exact h.table_canonical
  table_bytes := by rw [setReg_qtab, setReg_config]; exact h.table_bytes
  entry_whole := by rw [setReg_qtab, setReg_config]; exact h.entry_whole
  entry_width := by rw [setReg_qtab, setReg_config]; exact h.entry_width
  unused_zero q := by
    rw [reg_setReg, setReg_config]
    split
    · subst q; exact hv
    · exact h.unused_zero q
  status_form := by
    rw [reg_setReg]
    split
    · exact hs (Eq.symm ‹_›)
    · exact h.status_form

/-- A completing command keeps the invariant: RESULT uses all its bits (R20). -/
theorem Inv.setReg_result {s : State} (h : Inv s) (v : Word) : Inv (s.setReg .RESULT v) :=
  h.setReg (by simp [Reg.mask]) nofun

/-- The word of a fault is one of the forms of STATUS (R161, R162). -/
theorem statusForm_statusWord (c : FaultCause) : StatusForm (statusWord c) := by
  cases c <;> simp [StatusForm]

/-- The word of a fault lies in the bits STATUS uses (R20, R162). -/
theorem statusWord_unused_zero (c : FaultCause) : statusWord c &&& ~~~(0x00000F01 : Word) = 0 := by
  cases c <;> decide

/-- Raising a fault keeps the invariant. -/
theorem Inv.setReg_status {s : State} (h : Inv s) (c : FaultCause) : Inv (s.setReg .STATUS (statusWord c)) :=
  h.setReg (statusWord_unused_zero c) fun _ => statusForm_statusWord c

/-- A masked write of an RW register keeps the invariant (R152). -/
theorem Inv.setReg_masked {s : State} (h : Inv s) {r : Reg} (hr : r.writable = true) (v : Word) :
    Inv (s.setReg r (v &&& r.mask s.config)) :=
  h.setReg (by rw [BitVec.and_assoc, BitVec.and_not_self]; exact BitVec.and_zero) (by rintro rfl; cases hr)

/-- A byte of an entry is there after an entry write if the entry is the written one, or if it was there before. -/
theorem isSome_readByte_writeEntry (qw : Nat) (m : Memory) (t a k t' a' k' : Nat) (v : Word) :
    ((m.writeEntry qw t a k v).readByte (entryAddr t' a' k')).isSome =
        (decide (entryAddr t' a' k' = entryAddr t a k) || (m.readByte (entryAddr t' a' k')).isSome) ∧
      ((m.writeEntry qw t a k v).readByte (entryAddr t' a' k' + 1)).isSome =
        (decide (entryAddr t' a' k' = entryAddr t a k) || (m.readByte (entryAddr t' a' k' + 1)).isSome) := by
  have h1 : entryAddr t' a' k' ≠ entryAddr t a k + 1 := by simp only [entryAddr]; omega
  have h2 : entryAddr t' a' k' + 1 ≠ entryAddr t a k := by simp only [entryAddr]; omega
  simp only [readByte_writeEntry, if_neg h1, if_neg h2, Nat.add_right_cancel_iff]
  by_cases h : entryAddr t' a' k' = entryAddr t a k <;> simp [h]

/-- What an entry holds after a write of an existing entry: the low QW bits if it is that one, else what it held. -/
theorem readEntry_writeEntry {c : Config} (hw : c.wf) {t a k t' a' k' : Nat} (h : EntryExists c t a k)
    (h' : EntryExists c t' a' k') (m : Memory) (v : Word) :
    (m.writeEntry c.qw t a k v).readEntry t' a' k' =
      if t = t' ∧ a = a' ∧ k = k' then some (BitVec.ofNat 16 (v.toNat % 2 ^ c.qw)) else m.readEntry t' a' k' := by
  split
  · rename_i he
    obtain ⟨rfl, rfl, rfl⟩ := he
    exact readEntry_writeEntry_same hw.2.2.1.2 m t a k v
  · obtain ⟨-, ha, hk⟩ := h
    obtain ⟨-, ha', hk'⟩ := h'
    exact readEntry_writeEntry_ne (ha.trans (by decide)) (index_lt_256 hw hk) (ha'.trans (by decide))
      (index_lt_256 hw hk') ‹_›

/-- A write of an existing entry keeps the invariant (R36). -/
theorem Inv.writeEntry {s : State} (h : Inv s) {t a k : Nat} (he : EntryExists s.config t a k) (v : Word) :
    Inv (s.setQtab (s.qtab.writeEntry s.config.qw t a k v)) where
  config_wf := h.config_wf
  table_canonical := writeEntry_wf _ _ _ _ _ h.table_canonical
  table_bytes := by
    intro c hc
    rcases mem_writeEntry hc with hlo | hhi | hold
    · exact ⟨t, a, k, 0, he, by decide, hlo⟩
    · exact ⟨t, a, k, 1, he, by decide, hhi⟩
    · exact h.table_bytes c hold
  entry_whole t' a' k' he' := by
    obtain ⟨hlo, hhi⟩ := isSome_readByte_writeEntry s.config.qw s.qtab t a k t' a' k' v
    rw [setQtab_qtab, hlo, hhi, h.entry_whole t' a' k' he']
  entry_width t' a' k' e he' hr := by
    rw [setQtab_qtab, readEntry_writeEntry h.config_wf he he'] at hr
    split at hr
    · injection hr with hr
      subst hr
      exact lt_of_le_of_lt (Nat.mod_le _ _) (Nat.mod_lt _ (by positivity))
    · exact h.entry_width t' a' k' e he' hr
  unused_zero r := by rw [reg_setQtab]; exact h.unused_zero r
  status_form := by rw [reg_setQtab]; exact h.status_form

/-- Every effect of an event keeps the invariant. -/
theorem EventEffect.inv {e : HostEvent} {s s' : State} (he : EventEffect e s s') (h : Inv s) : Inv s' := by
  rcases he with ⟨-, rfl⟩ | ⟨_, _, -, hread⟩ | ⟨_, _, v, -, hwrite⟩
  · exact .of_cleared h.config_wf (reg_applyReset s) rfl
  · rcases hread with ⟨-, rfl⟩ | ⟨-, w, rfl | rfl⟩
    · exact h
    · exact h.of_eq (by simp) rfl rfl
    · exact h.of_eq (by simp) rfl rfl
  · rcases hwrite with rfl | ⟨x, rfl, -⟩ | ⟨c, rfl, -⟩ | ⟨_, x, -, -, -, -, -, -, rfl⟩ | ⟨r, hr, rfl⟩ |
        ⟨t, a, k, hx, -, rfl⟩
    · exact h
    · exact h.setReg_result x
    · exact h.setReg_status c
    · exact (h.setReg_result x).of_eq (by simp) rfl rfl
    · exact h.setReg_masked hr v
    · exact h.writeEntry hx v

/-- Settles O53: reset clears the registers and the tables, and R6's defaults are legal. -/
theorem resetHasTheInvariant : Obligations.ResetHasTheInvariant :=
  .of_cleared (by decide) (by intro r; cases r <;> rfl) rfl

/-- Settles O54: an idle step changes nothing, and every effect of an event keeps the invariant. -/
theorem stepKeepsTheInvariant : Obligations.StepKeepsTheInvariant := by
  intro s s' h hs
  rcases step_cases hs with ⟨-, rfl⟩ | ⟨e, rest, -, he⟩
  · exact h
  · exact he.inv (h.of_eq (reg_setInbox s rest) rfl rfl)

/-! ### CTX on an installed table (70_reset_and_hazards.md R192) -/

/-- On an installed table every lookup finds an entry, for every neighbourhood (R103). -/
theorem TableInstalled.lookup_ne_none {s : State} {t a : Nat} (h : TableInstalled s t) (ha : a < Config.numArrays) :
    lookup s t a ≠ none :=
  Option.isSome_iff_ne_none.1 (h a _ ha (maskIndex_lt _ _))

/-- On an installed table both probes find an entry (R101). -/
theorem TableInstalled.probe_ne_none {s : State} {t a : Nat} (h : TableInstalled s t) (hw : s.config.wf)
    (ha : a < Config.numArrays) : probe s t a ≠ none := by
  obtain ⟨-, -, -, -, hp, -⟩ := hw
  exact Option.isSome_iff_ne_none.1 (h a _ ha hp)

/-- On an installed table CTX reads no unwritten entry. -/
theorem TableInstalled.readsUnwritten_eq_false {s : State} {t : Nat} (h : TableInstalled s t) (hw : s.config.wf) :
    readsUnwritten s t = false := by
  refine Bool.eq_false_iff.2 fun hu => ?_
  rcases readsUnwritten_iff.1 hu with h0 | h1 | h2 | h3 | h4 | ⟨-, h3 | h4⟩
  · exact h.lookup_ne_none (by decide) h0
  · exact h.lookup_ne_none (by decide) h1
  · exact h.lookup_ne_none (by decide) h2
  · exact h.probe_ne_none hw (by decide) h3
  · exact h.probe_ne_none hw (by decide) h4
  · exact h.lookup_ne_none (by decide) h3
  · exact h.lookup_ne_none (by decide) h4

/-- Settles O21: of the three things CTX can do, an existing installed table leaves completion alone. -/
theorem ctxCompletesOnInstalledTable : Obligations.CtxCompletesOnInstalledTable := by
  intro s t hw ht hi
  rcases execCtx_cases t s with ⟨hn, -⟩ | ⟨-, -, he⟩ | ⟨-, hu, -⟩
  · exact absurd ht hn.not_gt
  · exact ⟨_, he⟩
  · rw [hi.readsUnwritten_eq_false hw] at hu
    cases hu

/-- An event that raises the model-only fault is a CMD write of a CTX that reads an unwritten entry (R168). -/
theorem EventEffect.of_raises {e : HostEvent} {s s' : State} (he : EventEffect e s s') (h0 : s.modelFault = none)
    (h1 : s'.modelFault ≠ none) :
    s'.modelFault = some .uninitTable ∧ s'.reg .STATUS = s.reg .STATUS ∧
      ∃ w t, e = .write cmdOffset 0xF w ∧ s.faulted = false ∧ decode s.config w = .ok (.ctx t) ∧
        t < s.config.numTables ∧ readsUnwritten s t = true := by
  rcases he with ⟨-, rfl⟩ | ⟨_, _, -, ⟨-, rfl⟩ | ⟨-, _, rfl | rfl⟩⟩ | ⟨_, _, w, rfl, hwrite⟩
  · exact absurd rfl h1
  · exact absurd h0 h1
  · exact absurd h0 h1
  · exact absurd h0 h1
  · rcases hwrite with rfl | ⟨_, rfl, -⟩ | ⟨_, rfl, -⟩ | ⟨t, _, rfl, rfl, hd, ht, hu, hf, rfl⟩ | ⟨_, -, rfl⟩ |
        ⟨_, _, _, -, -, rfl⟩
    · exact absurd h0 h1
    · exact absurd h0 h1
    · exact absurd h0 h1
    · exact ⟨rfl, rfl, w, t, rfl, hf, hd, ht, hu⟩
    · exact absurd ((setReg_modelFault _ _ _).trans h0) h1
    · exact absurd h0 h1

/-- Settles O10: only such an event raises the fault, and a table with an unwritten entry is not installed. -/
theorem onlyCtxOnUnwrittenTableRaisesTheModelFault : Obligations.OnlyCtxOnUnwrittenTableRaisesTheModelFault := by
  intro s s' hw h0 hs h1
  rcases step_cases hs with ⟨-, rfl⟩ | ⟨e, rest, hi, he⟩
  · exact absurd h0 h1
  · obtain ⟨hm, hst, w, t, rfl, hf, hd, ht, hu⟩ := he.of_raises h0 h1
    refine ⟨hm, hst, w, t, rest, hi, hf, hd, ht, fun hinst => ?_⟩
    have hfalse : readsUnwritten (s.setInbox rest) t = false := hinst.readsUnwritten_eq_false hw
    rw [hfalse] at hu
    cases hu

/-! ### The faulted state -/

/-- A write to an RW register leaves the RO registers (R20). -/
theorem reg_setReg_of_writable {r q : Reg} (hr : r.writable = true) (hq : q.writable = false) (s : State) (v : Word) :
    (s.setReg r v).reg q = s.reg q :=
  reg_setReg_ne s v (by rintro rfl; rw [hr] at hq; cases hq)

/-- While faulted, an event but a reset leaves the RO registers STATUS and RESULT (R164, R165). -/
theorem EventEffect.readOnly_of_faulted {e : HostEvent} {s s' : State} (he : EventEffect e s s') (hf : s.faulted = true)
    (hne : e ≠ .reset) {q : Reg} (hq : q.writable = false) : s'.reg q = s.reg q := by
  rcases he with ⟨rfl, -⟩ | ⟨_, _, -, ⟨-, rfl⟩ | ⟨-, w, rfl | rfl⟩⟩ | ⟨_, _, v, -, hwrite⟩
  · exact absurd rfl hne
  · rfl
  · exact reg_reply s w q
  · rw [reg_countDraw, reg_reply]
  · rcases hwrite with rfl | ⟨_, -, hn⟩ | ⟨_, -, hn⟩ | ⟨_, _, -, -, -, -, -, hn, -⟩ | ⟨r, hr, rfl⟩ |
        ⟨_, _, _, -, -, rfl⟩
    · rfl
    · exact absurd hf (by simp [hn])
    · exact absurd hf (by simp [hn])
    · exact absurd hf (by simp [hn])
    · exact reg_setReg_of_writable hr hq s _
    · exact reg_setQtab s _ q

/-- Settles O40: STATUS and RESULT are read-only, so while faulted an event but a reset leaves them. -/
theorem onlyResetLeavesTheFaultedState : Obligations.OnlyResetLeavesTheFaultedState := by
  intro s s' hf hs
  rcases step_cases hs with ⟨-, rfl⟩ | ⟨e, rest, hi, he⟩
  · exact .inl ⟨rfl, rfl⟩
  · by_cases hr : e = .reset
    · subst hr
      cases (step_event hi).symm.trans hs
      exact .inr ⟨rest, hi, reg_applyReset _ .STATUS, by rw [faulted_eq, reg_applyReset]; decide⟩
    · exact .inl ⟨he.readOnly_of_faulted hf hr rfl, he.readOnly_of_faulted hf hr rfl⟩

/-! ### Table accesses (10_state.md R36 to R38) -/

/-- A step with a write of all four bytes to an existing entry pending writes the entry (R36, R51). -/
theorem step_write_entry {s : State} (hw : s.config.wf) {t a k : Nat} (he : EntryExists s.config t a k) {v : Word}
    {rest : List HostEvent} (h : s.inbox = .write (entryAddr t a k) 0xF v :: rest) :
    step s = .next ((s.setInbox rest).setQtab (s.qtab.writeEntry s.config.qw t a k v)) := by
  simp only [step_event h, hostEvent, busWrite, setInbox_config, locate_entry hw he, writeLoc]
  rfl

/-- A step with a read of a written entry pending hands back the entry (R153). -/
theorem step_read_entry_written {s : State} (hw : s.config.wf) {t a k : Nat} (he : EntryExists s.config t a k)
    {be : BitVec 4} {rest : List HostEvent} (h : s.inbox = .read (entryAddr t a k) be :: rest) {q : Int}
    (hq : qEntry s t a k = some q) : step s = .next ((s.setInbox rest).reply (wrap32 q)) := by
  have hq' : qEntry (s.setInbox rest) t a k = some q := hq
  simp only [step_event h, hostEvent, busRead, setInbox_config, locate_entry hw he, hq']

/-- A step with a read of an unwritten entry pending hands back the next draw (R37, U9; log 4). -/
theorem step_read_entry_unwritten {s : State} (hw : s.config.wf) {t a k : Nat} (he : EntryExists s.config t a k)
    {be : BitVec 4} {rest : List HostEvent} (h : s.inbox = .read (entryAddr t a k) be :: rest)
    (hq : qEntry s t a k = none) :
    step s = .next (((s.setInbox rest).reply (wrap32 (drawEntry s t a k))).countDraw) := by
  have hq' : qEntry (s.setInbox rest) t a k = none := hq
  simp only [step_event h, hostEvent, busRead, setInbox_config, locate_entry hw he, hq']
  rfl

/-- `sext_16` of a word is its low half, signed (R8). -/
theorem sextN_16 (v : Word) : sextN 16 v.toNat = (v.extractLsb' 0 16).toInt := by
  rw [BitVec.toInt_eq_toNat_bmod, BitVec.extractLsb'_toNat, Nat.shiftRight_zero, sextN]
  exact (Int.emod_bmod (v.toNat : Int) (2 ^ 16)).symm

/-- The byte of an entry at QW = 16 is the byte of the word written (R52). -/
theorem leByte_low16 (v : Word) {j : Nat} (hj : j < 2) :
    leByte (BitVec.ofNat 32 (v.toNat % 2 ^ 16)) j = v.extractLsb' (8 * j) 8 := by
  apply BitVec.eq_of_toNat_eq
  simp only [leByte, BitVec.toNat_ofNat, BitVec.extractLsb'_toNat, Nat.shiftRight_eq_div_pow]
  interval_cases j <;> omega

/-- Settles O47: the step writes the entry, and table storage says what an entry write changes. -/
theorem tableWriteSetsTheEntry : Obligations.TableWriteSetsTheEntry := by
  intro s t a k v rest hw he hi
  refine ⟨_, step_write_entry hw he hi, qEntry_writeEntry hw t a k v, fun h16 => ⟨?_, ?_, ?_⟩, fun x h0 h1 => ?_,
    reg_setQtab _ _, rfl, rfl, rfl, rfl, rfl, rfl⟩
  · rw [← sextN_16, ← h16]
    exact qEntry_writeEntry hw t a k v
  · rw [setQtab_qtab, readByte_writeEntry, if_neg (by omega), if_pos rfl, h16, leByte_low16 v (by decide)]
  · rw [setQtab_qtab, readByte_writeEntry, if_pos rfl, h16, leByte_low16 v (by decide)]
  · rw [setQtab_qtab, readByte_writeEntry, if_neg h1, if_neg h0]

/-- Settles O48: the step hands back the entry, or a draw, which has 16 signed bits. -/
theorem tableReadReturnsTheSignedEntry : Obligations.TableReadReturnsTheSignedEntry := by
  refine fun s t a k be rest hw he hi => ⟨fun q hq => step_read_entry_written hw he hi hq, fun hq => ?_⟩
  obtain ⟨hlo, hhi⟩ := drawEntry_range hw t a k
  exact ⟨drawEntry s t a k, by omega, by omega, step_read_entry_unwritten hw he hi hq⟩

/-- Another existing entry after an entry write holds what it held. -/
theorem qEntry_writeEntry_ne {s : State} (hw : s.config.wf) {t a k t' a' k' : Nat} (h : EntryExists s.config t a k)
    (h' : EntryExists s.config t' a' k') (hne : ¬ (t = t' ∧ a = a' ∧ k = k')) (v : Word) :
    qEntry (s.setQtab (s.qtab.writeEntry s.config.qw t a k v)) t' a' k' = qEntry s t' a' k' := by
  rw [qEntry, setQtab_qtab, setQtab_config, readEntry_writeEntry hw h h', if_neg hne, qEntry]

/-- `sext_N` of a number is 0 exactly when its low N bits are (R8). -/
theorem sextN_eq_zero_iff (n v : Nat) : sextN n v = 0 ↔ v % 2 ^ n = 0 := by
  rw [sextN, ← Int.dvd_iff_bmod_eq_zero, Int.natCast_dvd_natCast, Nat.dvd_iff_mod_eq_zero]

/-- SKIP of two written probe entries is the test of R101, and it has no third value. -/
theorem skip_iff_of_probes {s : State} {t : Nat} {q3 q4 : Int} (h3 : probe s t 3 = some q3)
    (h4 : probe s t 4 = some q4) :
    (skip s t = some true ↔ q3 = 0 ∧ q4 = 0) ∧ (skip s t = some false ↔ ¬ (q3 = 0 ∧ q4 = 0)) := by
  rw [skip_eq_some.2 ⟨q3, q4, h3, h4, rfl⟩]
  by_cases z3 : q3 = 0 <;> simp [z3]

/-- Settles O27: the written probe entry holds the low QW bits, and the other what it held. -/
theorem skipFollowsProbeWrites : Obligations.SkipFollowsProbeWrites := by
  intro s t v q rest hw ht
  have hprobe : s.config.skipProbeIndex < 2 ^ s.config.idxBits := by
    obtain ⟨-, -, -, -, hp, -⟩ := hw
    exact hp
  have e3 : EntryExists s.config t 3 s.config.skipProbeIndex := ⟨ht, by decide, hprobe⟩
  have e4 : EntryExists s.config t 4 s.config.skipProbeIndex := ⟨ht, by decide, hprobe⟩
  constructor
  · intro hi hq
    refine ⟨_, step_write_entry hw e3 hi, ?_⟩
    have h4 := (qEntry_writeEntry_ne hw e3 e4 (by omega) v).trans hq
    have hskip := skip_iff_of_probes (qEntry_writeEntry hw t 3 s.config.skipProbeIndex v) h4
    rw [sextN_eq_zero_iff] at hskip
    exact hskip
  · intro hi hq
    refine ⟨_, step_write_entry hw e4 hi, ?_⟩
    have h3 := (qEntry_writeEntry_ne hw e4 e3 (by omega) v).trans hq
    have hskip := skip_iff_of_probes h3 (qEntry_writeEntry hw t 4 s.config.skipProbeIndex v)
    rw [sextN_eq_zero_iff, and_comm (a := q = 0)] at hskip
    exact hskip

/-! ### Commands and the SliceContext (10_state.md R34) -/

/-- A register write leaves every table entry (R36). -/
theorem qEntry_setReg (s : State) (r : Reg) (v : Word) (t a k : Nat) :
    qEntry (s.setReg r v) t a k = qEntry s t a k := by
  simp only [qEntry, setReg_qtab, setReg_config]

/-- A register write leaves every table entry's value, written or drawn (log 4). -/
theorem entryValue_setReg (s : State) (r : Reg) (v : Word) (t a k : Nat) :
    entryValue (s.setReg r v) t a k = entryValue s t a k := by
  simp only [entryValue, drawEntry, qEntry_setReg, setReg_config, setReg_stream, setReg_draws]

/-- The model's record of UNINIT_TABLE and of the draws commutes with a register write. -/
theorem setReg_latch_countDraw (s : State) (r : Reg) (v : Word) (f : Fault) :
    (s.countDraw.latch f).setReg r v = ((s.setReg r v).countDraw).latch f := by
  cases r <;> rfl

/-- The outcome `o` with `v` written to register `r` in its next state. -/
def outcomeSetReg (r : Reg) (v : Word) (o : Outcome) : Outcome :=
  andThen o (fun s => .next (s.setReg r v))

section SliceContext

variable {s : State} {r : Reg} {v : Word} (hr : r ∈ sliceContextRegs)
include hr

/-- A register outside the SliceContext does not see a write to one of its registers. -/
theorem reg_setReg_sliceContext {q : Reg} (hq : q ∉ sliceContextRegs) : (s.setReg r v).reg q = s.reg q :=
  reg_setReg_ne s v (ne_of_mem_of_not_mem hr hq).symm

/-- A completing command commutes with a write to the SliceContext. -/
theorem complete_sliceContext (x : Word) : complete x (s.setReg r v) = outcomeSetReg r v (complete x s) :=
  congrArg Host.Outcome.next (setReg_comm s v x (ne_of_mem_of_not_mem hr (by decide)))

/-- A fault commutes with a write to the SliceContext. -/
theorem raiseFault_sliceContext (c : FaultCause) : raiseFault c (s.setReg r v) = outcomeSetReg r v (raiseFault c s) :=
  congrArg Host.Outcome.next (setReg_comm s v _ (ne_of_mem_of_not_mem hr (by decide)))

/-- A CTX on an unwritten entry commutes with a write to the SliceContext. -/
theorem completeUninit_sliceContext (x : Word) :
    completeUninit x (s.setReg r v) = outcomeSetReg r v (completeUninit x s) := by
  rw [completeUninit, setReg_comm s v x (ne_of_mem_of_not_mem hr (by decide)), ← setReg_latch_countDraw]
  rfl

/-- A sample is no part of the SliceContext (R22). -/
theorem sample_sliceContext {q : Reg} (hq : q ∉ sliceContextRegs) : sample (s.setReg r v) q = sample s q := by
  rw [sample, reg_setReg_sliceContext hr hq, setReg_config, sample]

/-- CTX looks its arrays up at indices that do not depend on the SliceContext (R102). -/
theorem lookupIndex_sliceContext (a : Nat) : lookupIndex (s.setReg r v) a = lookupIndex s a := by
  have hd : difference (s.setReg r v) a = difference s a := by
    unfold difference
    split <;> simp [sample_sliceContext hr, sliceContextRegs]
  rw [lookupIndex, setReg_config, hd, lookupIndex]

/-- CTX computes its sum without the SliceContext (R100). -/
theorem contextValue_sliceContext (t : Nat) : contextValue (s.setReg r v) t = contextValue s t := by
  refine contextValue_congr (fun a => ?_) fun a => ?_
  · rw [lookupValue, lookupIndex_sliceContext hr, entryValue_setReg, lookupValue]
  · rw [probeValue, setReg_config, entryValue_setReg, probeValue]

/-- Which entries CTX reads does not depend on the SliceContext (R101, R168). -/
theorem readsUnwritten_sliceContext (t : Nat) : readsUnwritten (s.setReg r v) t = readsUnwritten s t := by
  simp only [readsUnwritten, skip, lookup, probe, lookupIndex_sliceContext hr, qEntry_setReg, setReg_config]

/-- No command depends on the SliceContext, and none but a completion or a fault writes a register. -/
theorem exec_sliceContext (i : Instr) : exec i (s.setReg r v) = outcomeSetReg r v (exec i s) := by
  cases i with
  | nop => rfl
  | pred =>
    simp only [exec, execPred, complete_sliceContext hr]
    simp [sample_sliceContext hr, sliceContextRegs]
  | ctx t =>
    simp only [exec, execCtx, apply_ite (outcomeSetReg r v), setReg_config, readsUnwritten_sliceContext hr,
      contextValue_sliceContext hr, raiseFault_sliceContext hr, completeUninit_sliceContext hr,
      complete_sliceContext hr]
  | scoord n =>
    have hreg {q : Reg} (hq : q ∉ sliceContextRegs) := reg_setReg_sliceContext (s := s) (v := v) hr hq
    have hw : width (s.setReg r v) = width s := by simp [width, hreg (q := .G_WIDTH) (by decide)]
    have hn : numHSlices (s.setReg r v) = numHSlices s := by simp [numHSlices, hreg (q := .G_NUMH) (by decide)]
    have hc : chromaShift (s.setReg r v) = chromaShift s := by simp [chromaShift, hreg (q := .G_CSHIFT) (by decide)]
    have hg : geomLegacy (s.setReg r v) = geomLegacy s := by simp [geomLegacy, hreg (q := .CFG) (by decide)]
    simp only [exec, execScoord, apply_ite (outcomeSetReg r v), hw, hn, hc, hg, raiseFault_sliceContext hr,
      complete_sliceContext hr]
  | rlt c =>
    simp only [exec, execRlt]
    split
    · exact complete_sliceContext hr _
    · exact raiseFault_sliceContext hr _

end SliceContext

/-- Settles O51: every command commutes with a write to a SliceContext register. -/
theorem commandsNeverReadTheSliceContext : Obligations.CommandsNeverReadTheSliceContext := by
  intro i s v r hr
  rw [exec_sliceContext hr]
  cases exec i s <;> rfl

end Sys2Proof.Machine

namespace Sys2Proof.Machine

/-! ### The order of accesses (20_memory.md R56, R59) -/

/-- An event leaves the pending events. -/
theorem hostEvent_keeps_inbox {e : HostEvent} {s s' : State} (h : hostEvent e s = .next s') : s'.inbox = s.inbox := by
  have h' := hostEvent_setInbox s.inbox h
  rw [setInbox_self, h] at h'
  injection h' with h'
  rw [h', setInbox_inbox]

/-- A run over the pending events `es` ends where their fold does, with the later ones pending. -/
theorem core_run_performAll (es rest : List HostEvent) {s : State} (h : s.inbox = es ++ rest) :
    ∃ s', Sys2Proof.core.run es.length s = .next s' ∧ performAll es (s.setInbox rest) = .next s' ∧
      s'.inbox = rest := by
  induction es generalizing s with
  | nil =>
    obtain rfl : s.inbox = rest := h
    exact ⟨s, rfl, rfl, rfl⟩
  | cons e es ih =>
    obtain ⟨u, hu, -⟩ := hostEvent_next e (s.setInbox rest)
    have hrest : u.inbox = rest := hostEvent_keeps_inbox hu
    have hstep : step s = .next (u.setInbox (es ++ rest)) := by
      rw [step_event h, ← setInbox_setInbox s rest]
      exact hostEvent_setInbox (es ++ rest) hu
    obtain ⟨s', hrun, hall, hs'⟩ := ih (setInbox_inbox u (es ++ rest))
    rw [setInbox_setInbox, ← hrest, setInbox_self] at hall
    exact ⟨s', (core_run_next es.length hstep).trans hrun, (performAll_cons hu).trans hall, hs'⟩

/-- Settles O9, by induction over the pending events. -/
theorem eventsArePerformedInOrder : Obligations.EventsArePerformedInOrder := by
  refine ⟨fun s e rest h => step_event h, fun es rest s h => ?_⟩
  obtain ⟨s', hrun, hall, hs'⟩ := core_run_performAll es rest h
  exact ⟨hrun.trans hall.symm, s', hall, hs'⟩

/-! ### Addresses with nothing behind them (20_memory.md R50 to R54) -/

/-- The addresses outside the window are those from 2^ADDR_BITS on (R50). -/
theorem locate_eq_outside_iff {c : Config} {n : Nat} : locate c n = .outside ↔ 2 ^ c.addrBits ≤ n := by
  refine ⟨fun h => ?_, fun h => if_pos h⟩
  by_contra hn
  simp only [locate, if_neg hn] at h
  split_ifs at h
  split at h <;> cases h

/-- A misaligned, reserved or unmapped address of the window reaches nothing (R53, R54). -/
theorem NoLocation.locate_eq_none {c : Config} {n : Nat} (h : NoLocation c n) (hn : n < 2 ^ c.addrBits) :
    locate c n = .none := by
  cases hl : locate c n with
  | cmd =>
    have := locate_eq_cmd hl
    simp only [NoLocation, cmdOffset] at h this
    omega
  | reg r =>
    have := locate_eq_reg hl
    cases r <;> simp only [NoLocation, Reg.offset] at h this <;> omega
  | entry t a k =>
    obtain ⟨⟨ht, ha, hk⟩, hk256, rfl⟩ := locate_eq_entry hl
    simp only [NoLocation, entryAddr, Config.numArrays] at h ha
    omega
  | none => rfl
  | outside => exact absurd (locate_eq_outside_iff.1 hl) hn.not_ge

/-- A write with a clear byte enable is ignored (R51). -/
theorem busWrite_of_clear_enable {be : BitVec 4} (h : be ≠ 0xF) (addr : Nat) (v : Word) (s : State) :
    busWrite addr be v s = .next s :=
  if_pos h

/-- A write of all four bytes to anything but CMD writes the location its address reaches (R152). -/
theorem busWrite_of_ne_cmd {addr : Nat} (h : addr ≠ cmdOffset) (v : Word) (s : State) :
    busWrite addr 0xF v s = .next (writeLoc (locate s.config addr) v s) := by
  cases hloc : locate s.config addr with
  | cmd => exact absurd (locate_eq_cmd hloc) h
  | _ => simp [busWrite, hloc]

/-- A write that reaches no location changes nothing, whatever its byte enables. -/
theorem busWrite_of_no_location {s : State} {addr : Nat}
    (hl : locate s.config addr = .none ∨ locate s.config addr = .outside) (be : BitVec 4) (v : Word) :
    busWrite addr be v s = .next s := by
  rcases busWrite_cases addr be v s with e | ⟨-, rfl, -⟩ | ⟨-, -, e⟩
  · exact e
  · simp at hl
  · rw [e]
    rcases hl with hl | hl <;> rw [hl] <;> rfl

/-- Settles O44: such a write is ignored, and such a read hands back 0. -/
theorem accessesThatReachNothing : Obligations.AccessesThatReachNothing := by
  refine fun s addr be v rest => ⟨fun hbe hi => ?_, fun hno hi => ?_, fun hno hn hi => ?_⟩
  · exact (step_event hi).trans (busWrite_of_clear_enable hbe addr v _)
  · have hl : locate s.config addr = .none ∨ locate s.config addr = .outside :=
      (lt_or_ge addr (2 ^ s.config.addrBits)).imp hno.locate_eq_none locate_eq_outside_iff.2
    exact (step_event hi).trans (busWrite_of_no_location (s := s.setInbox rest) hl be v)
  · simp only [step_event hi, hostEvent, busRead, setInbox_config, hno.locate_eq_none hn]

/-- Settles O49: the window lies from the base on, and an address from 2^ADDR_BITS on is outside it. -/
theorem windowIsRelativeToTheBase : Obligations.WindowIsRelativeToTheBase := by
  refine ⟨fun c base off h => ?_, fun c base addr => windowAddr_of_not_mem, by decide,
    fun s addr be v rest h => ⟨fun hi => ?_, fun hi => ?_⟩⟩
  · rw [windowAddr_of_mem (by omega) (by omega), Nat.add_sub_cancel_left]
  · have hl : locate s.config addr = .outside := locate_eq_outside_iff.2 h
    exact (step_event hi).trans (busWrite_of_no_location (s := s.setInbox rest) (.inr hl) be v)
  · simp only [step_event hi, hostEvent, busRead, setInbox_config, locate_eq_outside_iff.2 h]

/-! ### Accesses that leave no trace (20_memory.md R55) -/

/-- Settles O45: a read adds a reply, and may count a draw. -/
theorem readsHaveNoSideEffect : Obligations.ReadsHaveNoSideEffect := by
  intro s addr be rest hn hi
  rcases busRead_cases addr (s.setInbox rest) with ⟨hout, -⟩ | ⟨-, w, e | e⟩
  · exact absurd hn hout.not_gt
  · exact ⟨_, w, (step_event hi).trans (congrArg Host.Outcome.next e), by simp⟩
  · exact ⟨_, w, (step_event hi).trans (congrArg Host.Outcome.next e), by simp⟩

/-- Byte writes to two addresses commute, whether or not the storage is in canonical form. -/
theorem writeByte_comm_of_lt (m : Memory) {a a' : Nat} (b b' : Byte) (h : a < a') :
    (m.writeByte a b).writeByte a' b' = (m.writeByte a' b').writeByte a b := by
  induction m with
  | nil => simp [Memory.writeByte, h, h.ne, h.not_gt]
  | cons c rest ih =>
    obtain ⟨x, y⟩ := c
    rcases lt_trichotomy a x with hx | rfl | hx
    · rcases lt_trichotomy a' x with hx' | rfl | hx'
      · simp [Memory.writeByte, h, h.ne, h.not_gt, hx, hx']
      · simp [Memory.writeByte, h, h.ne, h.not_gt]
      · simp [Memory.writeByte, h.ne, h.not_gt, hx, hx'.ne, hx'.not_gt]
    · simp [Memory.writeByte, h.ne, h.not_gt]
    · simp [Memory.writeByte, ih, hx.ne, hx.not_gt, (hx.trans h).ne, (hx.trans h).not_gt]

/-- Writing an entry twice is writing it once. -/
theorem writeEntry_writeEntry_same (qw : Nat) (m : Memory) (t a k : Nat) (v : Word) :
    (m.writeEntry qw t a k v).writeEntry qw t a k v = m.writeEntry qw t a k v := by
  simp only [Memory.writeEntry]
  rw [← writeByte_comm_of_lt _ _ _ (Nat.lt_succ_self _), writeByte_writeByte_same, writeByte_writeByte_same]

/-- A write to anything but CMD, made twice, is made once (R55). -/
theorem writeLoc_writeLoc_same (l : Loc) (v : Word) (s : State) : writeLoc l v (writeLoc l v s) = writeLoc l v s := by
  rcases writeLoc_cases l v s with e | ⟨r, rfl, hr, e⟩ | ⟨t, a, k, rfl, e⟩
  · rw [e, e]
  · rw [e, writeLoc, writeReg_of_writable hr, setReg_config, setReg_setReg]
  · rw [e, writeLoc, setQtab_config, setQtab_qtab, setQtab_setQtab, writeEntry_writeEntry_same]

/-- Settles O46: what is not ignored and not a command is a write to a location, which is idempotent. -/
theorem nonCommandWritesAreIdempotent : Obligations.NonCommandWritesAreIdempotent := by
  intro s s' addr be v hne hs
  by_cases hbe : be = 0xF
  · subst be
    have hcfg : s'.config = s.config := (hostEvent_keeps hs).1
    cases (busWrite_of_ne_cmd hne v s).symm.trans hs
    exact (busWrite_of_ne_cmd hne v _).trans (by rw [hcfg, writeLoc_writeLoc_same])
  · cases (busWrite_of_clear_enable hbe addr v s).symm.trans hs
    exact hs

/-! ### Words, and the command a step runs (20_memory.md R52, 44_control.md R151) -/

/-- Byte `j` of a word is its bits [8j+7 : 8j] (R52). -/
theorem leByte_eq_extractLsb' (w : Word) (j : Nat) : leByte w j = w.extractLsb' (8 * j) 8 := by
  apply BitVec.eq_of_toNat_eq
  rw [leByte, BitVec.toNat_ofNat, BitVec.extractLsb'_toNat, Nat.shiftRight_eq_div_pow]

/-- Settles O6: bytes of words are bit fields, and put together they are the word. -/
theorem wordBytesAreLittleEndian : Obligations.WordBytesAreLittleEndian :=
  fun w => ⟨fun j _ => leByte_eq_extractLsb' w j, wordOfBytes_leByte w⟩

/-- While faulted, a CMD write is ignored (R164). -/
theorem execute_faulted {s : State} (hf : s.faulted = true) (w : Word) : execute w s = .next s :=
  if_pos hf

/-- An unfaulted PXC runs the command the word decodes to (R151). -/
theorem execute_decoded {s : State} {w : Word} {i : Instr} (hf : s.faulted = false) (hd : decode s.config w = .ok i) :
    execute w s = exec i s := by
  simp only [execute, hf, hd, Bool.false_eq_true, if_false]

/-- Settles O7: the step executes the word, in each of the three cases of R151. -/
theorem stepRunsTheDecodedCommand : Obligations.StepRunsTheDecodedCommand := by
  intro s w rest hi
  rw [step_write_cmd hi]
  exact ⟨fun hf => execute_faulted (s := s.setInbox rest) hf w, fun hf i hd => execute_decoded hf hd,
    fun hf e he => execute_illegalWord hf (decode_eq_error_iff.1 ⟨e, he⟩)⟩

/-- The decoder reads no parameter but NSL_BITS (R6, R72). -/
theorem decode_congr {c d : Config} (h : c.nslBits = d.nslBits) (w : Word) : decode c w = decode d w := by
  simp only [decode, h]

/-- `decodeTableWord` is the decoder at the defaults (log 10). -/
theorem decode_of_decodeTableWord {nbits w : Nat} {i : Instr} (h : decodeTableWord nbits w = some i) :
    decode Config.default (tableWord nbits w) = .ok i := by
  unfold decodeTableWord at h
  split at h
  · rename_i hd
    injection h with h
    exact h ▸ hd
  · cases h

/-- A step with the word as the host's next CMD write executes it on the state as it was (log 10). -/
theorem step_withFetchWord (s : State) (nbits w : Nat) :
    step (s.withFetchWord nbits w) = execute (tableWord nbits w) s :=
  step_write_cmd rfl

/-- Settles O8: at NSL_BITS = 16 the state's decoder is that of the opcode table. -/
theorem fetchWordRunsNext : Obligations.FetchWordRunsNext := by
  refine fun s nbits w i hf => ⟨fun hd => ?_, fun hn hd => ?_⟩
  · rw [step_withFetchWord, execute_decoded hf hd]
  · rw [step_withFetchWord, execute_decoded hf ((decode_congr hn _).trans (decode_of_decodeTableWord hd))]

end Sys2Proof.Machine

namespace Sys2Proof.Machine

/-! ### The opcode map (30_encoding.md R76) -/

/-- Settles O1: the eight words that decode are encodings of well-formed commands. -/
theorem decodeSampleWords : Obligations.DecodeSampleWords := by
  have hok : ∀ i : Instr, i.wellFormed Config.default = true → decode Config.default (encode i) = .ok i :=
    fun _ => decode_encode (by decide)
  exact ⟨hok .nop rfl, hok .pred rfl, hok (.ctx 1) rfl, hok (.ctx 7) rfl, hok (.scoord 3) rfl, hok (.scoord 65535) rfl,
    hok (.rlt 25) rfl, hok (.rlt 63) rfl, rfl, rfl⟩

/-- A bit of a field of a word (R7). -/
theorem testBit_bits (w : Word) (hi lo j : Nat) :
    (bits w hi lo).testBit j = (decide (j < hi - lo + 1) && w.getLsbD (lo + j)) := by
  rw [bits, Nat.testBit_mod_two_pow, Nat.testBit_div_two_pow, Nat.add_comm j lo]
  rfl

/-- A field of a word is a number that fits it exactly when its bits are the number's (R7). -/
theorem bits_eq_iff {w : Word} {hi lo v : Nat} (hv : v < 2 ^ (hi - lo + 1)) :
    bits w hi lo = v ↔ ∀ j < hi - lo + 1, w.getLsbD (lo + j) = v.testBit j := by
  refine ⟨fun h j hj => by rw [← h, testBit_bits, decide_eq_true hj, Bool.true_and],
    fun h => Nat.eq_of_testBit_eq fun j => ?_⟩
  rw [testBit_bits]
  by_cases hj : j < hi - lo + 1
  · rw [decide_eq_true hj, Bool.true_and, h j hj]
  · have hvj : v < 2 ^ j := hv.trans_le (Nat.pow_le_pow_right (by norm_num) (not_lt.1 hj))
    rw [decide_eq_false hj, Bool.false_and, Nat.testBit_eq_false_of_lt hvj]

/-- A word matches an opcode under a mask of the opcode's bits and of the bits [hi:lo] exactly when it has the opcode and
its bits [hi:lo] are 0 (R71, R76). -/
theorem and_mask_eq_iff {w mask : Word} {op lo hi : Nat} (hop : op < 2 ^ 4) (hfield : 4 ≤ lo ∧ lo ≤ hi ∧ hi < 32)
    (hmask : ∀ j < 32, mask.getLsbD j = decide (j < 4 ∨ lo ≤ j ∧ j ≤ hi)) :
    w &&& mask = BitVec.ofNat 32 op ↔ bits w 3 0 = op ∧ bits w hi lo = 0 := by
  have hop0 : ∀ j, 4 ≤ j → op.testBit j = false := fun j hj =>
    Nat.testBit_eq_false_of_lt (hop.trans_le (Nat.pow_le_pow_right (by norm_num) hj))
  rw [bits_eq_iff hop, bits_eq_iff (by positivity), BitVec.eq_of_getLsbD_eq_iff]
  simp only [BitVec.getLsbD_and, BitVec.getLsbD_ofNat, Nat.zero_testBit, Nat.zero_add]
  refine ⟨fun h => ⟨fun j hj => ?_, fun j hj => ?_⟩, fun ⟨hlow, hres⟩ j hj => ?_⟩
  · have hj32 : j < 32 := by omega
    have hbit := h j hj32
    rwa [hmask j hj32, decide_eq_true (.inl hj), decide_eq_true hj32, Bool.and_true, Bool.true_and] at hbit
  · have hj32 : lo + j < 32 := by omega
    have hbit := h (lo + j) hj32
    rwa [hmask _ hj32, hop0 _ (by omega), decide_eq_true (.inr (by omega)), Bool.and_true, Bool.and_false] at hbit
  · rw [hmask j hj, decide_eq_true hj, Bool.true_and]
    by_cases h4 : j < 4
    · rw [decide_eq_true (.inl h4), Bool.and_true, hlow j h4]
    · rw [hop0 j (by omega), Bool.and_eq_false_iff, decide_eq_false_iff_not, or_iff_not_imp_right, not_not]
      intro hj
      simpa [Nat.add_sub_cancel' (show lo ≤ j by omega)] using hres (j - lo) (by omega)

/-- A property of some command, command by command. -/
theorem exists_instr_iff {p : Instr → Prop} :
    (∃ i, p i) ↔ p .nop ∨ p .pred ∨ (∃ t, p (.ctx t)) ∨ (∃ n, p (.scoord n)) ∨ ∃ k, p (.rlt k) := by
  refine ⟨fun ⟨i, hi⟩ => ?_, ?_⟩
  · cases i with
    | nop => exact .inl hi
    | pred => exact .inr (.inl hi)
    | ctx t => exact .inr (.inr (.inl ⟨t, hi⟩))
    | scoord n => exact .inr (.inr (.inr (.inl ⟨n, hi⟩)))
    | rlt k => exact .inr (.inr (.inr (.inr ⟨k, hi⟩)))
  · rintro (h | h | ⟨_, h⟩ | ⟨_, h⟩ | ⟨_, h⟩) <;> exact ⟨_, h⟩

/-- At NSL_BITS = 16 a word decodes to a row's mnemonic exactly when it matches the row: the mask takes in the opcode and
the reserved bits of the command's format (R71, R76). -/
theorem decode_mnemonic_iff_matches {c : Config} (hc : c.nslBits = 16) (w : Word) : ∀ row ∈ opcodeRows,
    (∃ i, decode c w = .ok i ∧ i.mnemonic = row.mnemonic) ↔ w &&& row.mask = row.pattern := by
  have hsidx : bits w 31 16 < 65536 := Nat.mod_lt _ (by norm_num)
  simp only [decode_eq_ok_iff, exists_instr_iff, DecodesTo, Instr.mnemonic, hc]
  intro row hrow
  simp only [opcodeRows, List.mem_cons, List.not_mem_nil, or_false] at hrow
  rcases hrow with rfl | rfl | rfl | rfl | rfl
  · refine .trans ?_ (and_mask_eq_iff (op := 0) (lo := 4) (hi := 31) (by decide) (by decide) (by decide)).symm
    simp
  · refine .trans ?_ (and_mask_eq_iff (op := 1) (lo := 4) (hi := 31) (by decide) (by decide) (by decide)).symm
    simp
  · refine .trans ?_ (and_mask_eq_iff (op := 2) (lo := 7) (hi := 31) (by decide) (by decide) (by decide)).symm
    simp
  · refine .trans ?_ (and_mask_eq_iff (op := 3) (lo := 4) (hi := 15) (by decide) (by decide) (by decide)).symm
    simp [hsidx]
  · refine .trans ?_ (and_mask_eq_iff (op := 4) (lo := 10) (hi := 31) (by decide) (by decide) (by decide)).symm
    simp

/-- Every row's mask takes in the opcode's bits, and its pattern is 0 elsewhere. -/
theorem mask_and_opcode : ∀ row ∈ opcodeRows, row.mask &&& 0xF = 0xF ∧ row.pattern &&& 0xF = row.pattern := by
  decide

/-- No two rows have one opcode. -/
theorem row_eq_of_pattern_eq : ∀ row ∈ opcodeRows, ∀ row' ∈ opcodeRows,
    row.pattern = row'.pattern → row = row' := by
  decide

/-- A word that matches a row has the row's opcode. -/
theorem and_opcode_of_matches {w : Word} {row : OpcodeRow} (hrow : row ∈ opcodeRows) (h : w &&& row.mask = row.pattern) :
    w &&& 0xF = row.pattern := by
  obtain ⟨hmask, hpat⟩ := mask_and_opcode row hrow
  rw [← hmask, ← BitVec.and_assoc, h, hpat]

/-- Settles O4: each mask takes in a format's opcode and reserved bits, and the opcode tells the rows apart. -/
theorem decodeAgreesWithOpcodeMap : Obligations.DecodeAgreesWithOpcodeMap := by
  refine ⟨fun c w hc => decode_mnemonic_iff_matches hc w, fun w row hrow row' hrow' h h' => ?_⟩
  have hop := and_opcode_of_matches hrow h
  have hop' := and_opcode_of_matches hrow' h'
  exact row_eq_of_pattern_eq row hrow row' hrow' (hop.symm.trans hop')

/-! ### What commands write (30_encoding.md R81, 44_control.md R151) -/

/-- An outcome goes on to one next state. -/
theorem next_inj {o : Outcome} {a b : State} (ha : o = .next a) (hb : o = .next b) : a = b :=
  Host.Outcome.next.inj (ha.symm.trans hb)

/-- Settles O11: the cases of each command, with their causes. -/
theorem commandsWriteResultOrStatus : Obligations.CommandsWriteResultOrStatus := by
  refine fun s s' => ⟨fun h => next_inj h rfl, fun h => ⟨_, next_inj h (execPred_eq s)⟩, fun t h => ?_, fun i h => ?_,
    fun c h => ?_⟩
  · rcases execCtx_cases t s with ⟨-, e⟩ | ⟨-, -, e⟩ | ⟨-, -, e⟩
    · exact .inr (.inl (next_inj h e))
    · exact .inl ⟨_, next_inj h e⟩
    · exact .inr (.inr ⟨_, next_inj h e⟩)
  · rcases execScoord_cases i s with ⟨-, e⟩ | ⟨-, -, e⟩ | ⟨-, -, -, e⟩ | ⟨-, -, -, -, e⟩ | ⟨-, -, -, -, e⟩
    · exact .inr (.inl (next_inj h e))
    · exact .inr (.inr (.inl (next_inj h e)))
    · exact .inr (.inr (.inr (next_inj h e)))
    · exact .inl ⟨_, next_inj h e⟩
    · exact .inl ⟨_, next_inj h e⟩
  · rcases execRlt_cases c s with ⟨_, -, -, e⟩ | ⟨-, e⟩
    · exact .inl ⟨_, next_inj h e⟩
    · exact .inr (next_inj h e)

/-- A command writes RESULT or STATUS, at most one of them, and nothing else but a CTX's record of UNINIT_TABLE (R151,
R162, R168). -/
theorem exec_effect {i : Instr} {s s' : State} (h : exec i s = .next s') :
    (∃ r v, (r = .RESULT ∨ r = .STATUS) ∧ s' = s.setReg r v) ∨
      ∃ t v, i = .ctx t ∧ s' = ((s.setReg .RESULT v).countDraw).latch .uninitTable := by
  rcases exec_cases i s with e | ⟨v, e⟩ | ⟨c, e⟩ | ⟨t, v, hi, -, -, e⟩ <;> cases next_inj h e
  · exact .inl ⟨.RESULT, _, .inl rfl, (setReg_self s .RESULT).symm⟩
  · exact .inl ⟨.RESULT, v, .inl rfl, rfl⟩
  · exact .inl ⟨.STATUS, statusWord c, .inr rfl, rfl⟩
  · exact .inr ⟨t, v, hi, rfl⟩

/-- Settles O12: neither a write to RESULT or STATUS nor the record of UNINIT_TABLE reaches the rest of the state. -/
theorem commandFrame : Obligations.CommandFrame := by
  intro i s s' h
  rcases exec_effect h with ⟨r, v, hr, rfl⟩ | ⟨t, v, hi, rfl⟩
  · refine ⟨fun q h1 h2 => reg_setReg_ne s v ?_, ?_, by simp, by simp, by simp, by simp, by simp, .inl (by simp)⟩
    · rcases hr with rfl | rfl <;> assumption
    · rcases hr with rfl | rfl <;> simp
  · exact ⟨fun q hq _ => by simp [hq], .inr (by simp), by simp, by simp, by simp, by simp, by simp,
      .inr ⟨⟨t, hi⟩, by simp, by simp⟩⟩

/-- Settles O38: SCOORD takes one branch in both states, as its four operands are equal, and RLT looks at its class alone. -/
theorem scoordAndRltDependOnlyOnOperands : Obligations.ScoordAndRltDependOnlyOnOperands := by
  refine ⟨fun s u i hcfg hwidth hnumh hshift hmode => ?_, fun s u c => ?_⟩
  · have hw : width s = width u := by rw [width, width, hcfg, hwidth]
    have hn : numHSlices s = numHSlices u := by rw [numHSlices, numHSlices, hcfg, hnumh]
    have hc : chromaShift s = chromaShift u := by rw [chromaShift, chromaShift, hcfg, hshift]
    have hg : geomLegacy s = geomLegacy u := by rw [geomLegacy, geomLegacy, hmode]
    simp only [exec, execScoord, hw, hn, hc, hg]
    split_ifs
    · exact ⟨.STATUS, _, .inr rfl, rfl, rfl⟩
    · exact ⟨.STATUS, _, .inr rfl, rfl, rfl⟩
    · exact ⟨.STATUS, _, .inr rfl, rfl, rfl⟩
    · exact ⟨.RESULT, _, .inl rfl, rfl, rfl⟩
    · exact ⟨.RESULT, _, .inl rfl, rfl, rfl⟩
  · simp only [exec, execRlt]
    cases runLengthRom[c]? with
    | none => exact ⟨.STATUS, _, .inr rfl, rfl, rfl⟩
    | some n => exact ⟨.RESULT, _, .inl rfl, rfl, rfl⟩

end Sys2Proof.Machine

namespace Sys2Proof.Machine

/-! ### The prediction as a clamp (40_predictor.md R91, R92) -/

/-- The middle of three values is the second clamped between the other two (R91). -/
theorem median3_eq_clamp (a b c : Int) : median3 a b c = min (max b (min a c)) (max a c) := by
  rcases median3_cases a b c with ⟨h, _⟩ | ⟨h, _⟩ | ⟨h, _⟩ <;> rw [h] <;> omega

/-- The prediction is the gradient clamped between L and T (R91). -/
theorem predict_eq_clamp (l t lt : Int) : predict l t lt = min (max (l + t - lt) (min l t)) (max l t) :=
  median3_eq_clamp l (l + t - lt) t

/-- The prediction lies between L and T (R91). -/
theorem predict_mem_Icc (l t lt : Int) : predict l t lt ∈ Set.Icc (min l t) (max l t) := by
  rw [predict_eq_clamp]
  exact ⟨le_min (le_max_right _ _) min_le_max, min_le_right _ _⟩

/-- RESULT holds the prediction exactly: between two samples, it fits a signed word (R91). -/
theorem toInt_wrap32_predict {s : State} (h : s.config.wf) :
    (wrap32 (predict (sample s .S_L) (sample s .S_T) (sample s .S_LT))).toInt =
      predict (sample s .S_L) (sample s .S_T) (sample s .S_LT) := by
  obtain ⟨hlow, hhigh⟩ := predict_mem_Icc (sample s .S_L) (sample s .S_T) (sample s .S_LT)
  obtain ⟨hL, hL'⟩ := sample_range h .S_L
  obtain ⟨hT, hT'⟩ := sample_range h .S_T
  exact toInt_wrap32 ((le_min hL hT).trans hlow) (hhigh.trans_lt (max_lt hL' hT'))

/-- Settles O15: the prediction lies between two samples, so RESULT holds it exactly, and it is the clamped gradient. -/
theorem predictionIsTheClampedGradient : Obligations.PredictionIsTheClampedGradient := by
  refine ⟨fun s hw => ⟨_, execPred_eq s, ?_⟩, fun l t lt => median3_eq_clamp l _ t, by decide⟩
  rw [toInt_wrap32_predict hw]
  exact ⟨predict_eq_clamp _ _ _, predict_mem_Icc _ _ _⟩

/-- A sample is read from SW and its own register alone (R22). -/
theorem sample_congr {s u : State} {r : Reg} (hc : s.config = u.config) (hr : s.reg r = u.reg r) :
    sample s r = sample u r := by
  rw [sample, sample, hc, hr]

/-- Settles O16: PRED writes a function of three samples, which are equal in the two states. -/
theorem predDependsOnlyOnItsSamples : Obligations.PredDependsOnlyOnItsSamples := by
  intro s u hc hL hT hLT
  refine ⟨_, execPred_eq s, ?_⟩
  rw [sample_congr hc hL, sample_congr hc hT, sample_congr hc hLT]
  exact execPred_eq u

end Sys2Proof.Machine

namespace Sys2Proof.Machine

/-! ### The sum of the entries a CTX reads (41_context.md R100, R101) -/

/-- Every entry a CTX of table t reads holds a value, and r is their sum: the shortcut's three (R101), or all five. -/
def WrittenSum (s : State) (t : Nat) (r : Int) : Prop :=
  ∃ q0 q1 q2, lookup s t 0 = some q0 ∧ lookup s t 1 = some q1 ∧ lookup s t 2 = some q2 ∧
    ((skip s t = some true ∧ r = q0 + q1 + q2) ∨
     (skip s t = some false ∧ ∃ q3 q4, lookup s t 3 = some q3 ∧ lookup s t 4 = some q4 ∧ r = q0 + q1 + q2 + q3 + q4))

/-- Where the entries a CTX reads have a sum, none of them is unwritten. -/
theorem WrittenSum.readsUnwritten_eq_false {s : State} {t : Nat} {r : Int} (h : WrittenSum s t r) :
    readsUnwritten s t = false := by
  obtain ⟨q0, q1, q2, h0, h1, h2, ⟨hs, -⟩ | ⟨hs, q3, q4, h3, h4, -⟩⟩ := h
  · obtain ⟨p3, p4, hp3, hp4, -⟩ := skip_eq_some.1 hs
    simp [Bool.eq_false_iff, readsUnwritten_iff, h0, h1, h2, hp3, hp4, hs]
  · obtain ⟨p3, p4, hp3, hp4, -⟩ := skip_eq_some.1 hs
    simp [Bool.eq_false_iff, readsUnwritten_iff, h0, h1, h2, h3, h4, hp3, hp4]

/-- The entries a CTX reads have at most one sum. -/
theorem WrittenSum.unique {s : State} {t : Nat} {r r' : Int} (h : WrittenSum s t r) (h' : WrittenSum s t r') :
    r = r' := by
  obtain ⟨q0, q1, q2, h0, h1, h2, h⟩ := h
  obtain ⟨q0', q1', q2', h0', h1', h2', h'⟩ := h'
  cases h0.symm.trans h0'
  cases h1.symm.trans h1'
  cases h2.symm.trans h2'
  rcases h with ⟨hs, rfl⟩ | ⟨hs, q3, q4, h3, h4, rfl⟩ <;> rcases h' with ⟨hs', rfl⟩ | ⟨hs', q3', q4', h3', h4', rfl⟩
  · rfl
  · cases hs.symm.trans hs'
  · cases hs.symm.trans hs'
  · cases h3.symm.trans h3'
    cases h4.symm.trans h4'
    rfl

/-- A CTX that reads no unwritten entry computes the sum of the entries it reads. -/
theorem writtenSum_contextValue {s : State} {t : Nat} (h : readsUnwritten s t = false) :
    WrittenSum s t (contextValue s t) :=
  written_cases h

/-- A CTX of an existing table that reads no unwritten entry completes (R151). -/
theorem execCtx_of_written {s : State} {t : Nat} (ht : t < s.config.numTables) (hu : readsUnwritten s t = false) :
    exec (.ctx t) s = .next (s.setReg .RESULT (wrap32 (contextValue s t))) := by
  rcases execCtx_cases t s with ⟨hn, -⟩ | ⟨-, -, he⟩ | ⟨-, hu', -⟩
  · exact absurd ht hn.not_gt
  · exact he
  · exact absurd hu' (by simp [hu])

/-- A CTX of an existing table that reads an unwritten entry raises UNINIT_TABLE (R168). -/
theorem execCtx_of_unwritten {s : State} {t : Nat} (ht : t < s.config.numTables) (hu : readsUnwritten s t = true) :
    exec (.ctx t) s =
      .next (((s.setReg .RESULT (wrap32 (contextValue s t))).countDraw).latch .uninitTable) := by
  rcases execCtx_cases t s with ⟨hn, -⟩ | ⟨-, hu', -⟩ | ⟨-, -, he⟩
  · exact absurd ht hn.not_gt
  · exact absurd hu (by simp [hu'])
  · exact he

/-- A CTX of an existing table completes with the sum of the entries it reads, if they have one (R100, R101). -/
theorem WrittenSum.execCtx {s : State} {t : Nat} {r : Int} (h : WrittenSum s t r) (ht : t < s.config.numTables) :
    exec (.ctx t) s = .next (s.setReg .RESULT (wrap32 r)) := by
  have hu := h.readsUnwritten_eq_false
  rw [h.unique (writtenSum_contextValue hu)]
  exact execCtx_of_written ht hu

/-- A CTX of an existing table completes exactly when the entries it reads have a sum, and writes it to RESULT: on an
unwritten entry it draws, and so leaves another state. -/
theorem execCtx_completes_iff {s : State} {t : Nat} {v : Word} (ht : t < s.config.numTables) :
    exec (.ctx t) s = .next (s.setReg .RESULT v) ↔ ∃ r, WrittenSum s t r ∧ wrap32 r = v := by
  constructor
  · intro h
    cases hu : readsUnwritten s t with
    | false =>
      have hv := congrArg (State.reg · .RESULT) (next_inj (execCtx_of_written ht hu) h)
      exact ⟨_, writtenSum_contextValue hu, by simpa using hv⟩
    | true =>
      have hd := congrArg State.draws (next_inj (execCtx_of_unwritten ht hu) h)
      simp at hd
  · rintro ⟨r, hr, rfl⟩
    exact hr.execCtx ht

/-! ### Which entries a CTX reads (60_exceptions.md R168) -/

/-- SKIP(t) is false exactly when both probe entries are written and not both 0 (R101). -/
theorem skip_eq_false_iff {s : State} {t : Nat} :
    skip s t = some false ↔
      probe s t 3 ≠ none ∧ probe s t 4 ≠ none ∧ ¬ (probe s t 3 = some 0 ∧ probe s t 4 = some 0) := by
  cases h3 : probe s t 3 with
  | none => simp [skip, h3]
  | some q3 =>
    cases h4 : probe s t 4 with
    | none => simp [skip, h3, h4]
    | some q4 => simp [(skip_iff_of_probes h3 h4).2]

/-- CTX reads an unwritten entry exactly when one of these is: a first-order entry, a probe entry, or, unless both probe
entries are 0, a second-order entry (R168). -/
theorem readsUnwritten_iff_probes {s : State} {t : Nat} :
    readsUnwritten s t = true ↔
      lookup s t 0 = none ∨ lookup s t 1 = none ∨ lookup s t 2 = none ∨ probe s t 3 = none ∨ probe s t 4 = none ∨
        (¬ (probe s t 3 = some 0 ∧ probe s t 4 = some 0) ∧ (lookup s t 3 = none ∨ lookup s t 4 = none)) := by
  rw [readsUnwritten_iff, skip_eq_false_iff]
  tauto

/-- Settles O20: the entries listed are those CTX reads, and it raises UNINIT_TABLE exactly when one is unwritten. -/
theorem ctxRaisesUninitExactlyOnUnwrittenEntries : Obligations.CtxRaisesUninitExactlyOnUnwrittenEntries := by
  intro s t ht unwritten
  have hiff : readsUnwritten s t = true ↔ unwritten := readsUnwritten_iff_probes
  exact ⟨fun h => ⟨_, execCtx_of_unwritten ht (hiff.2 h)⟩,
    fun h => ⟨_, execCtx_of_written ht (Bool.eq_false_iff.2 (mt hiff.1 h))⟩⟩

/-! ### The range of a CTX result (41_context.md R104) -/

/-- A sum of three or of five entries lies in the range of five (R104). -/
theorem contextValue_range {s : State} (h : s.config.wf) (t : Nat) :
    -163840 ≤ contextValue s t ∧ contextValue s t ≤ 163835 := by
  have h0 := lookupValue_range h t 0
  have h1 := lookupValue_range h t 1
  have h2 := lookupValue_range h t 2
  have h3 := lookupValue_range h t 3
  have h4 := lookupValue_range h t 4
  rcases contextValue_cases s t with ⟨-, -, e⟩ | ⟨-, e⟩ <;> omega

/-- RESULT holds the context index exactly: it fits a signed word (R104). -/
theorem toInt_wrap32_contextValue {s : State} (h : s.config.wf) (t : Nat) :
    (wrap32 (contextValue s t)).toInt = contextValue s t := by
  obtain ⟨hlow, hhigh⟩ := contextValue_range h t
  exact toInt_wrap32 (by omega) (by omega)

/-- Whether or not it reads an unwritten entry, a CTX of an existing table leaves its sum in RESULT. -/
theorem reg_result_of_execCtx {s s' : State} {t : Nat} (ht : t < s.config.numTables)
    (h : exec (.ctx t) s = .next s') : s'.reg .RESULT = wrap32 (contextValue s t) := by
  cases hu : readsUnwritten s t with
  | false => simp [next_inj h (execCtx_of_written ht hu)]
  | true => simp [next_inj h (execCtx_of_unwritten ht hu)]

/-- Settles O22: RESULT is a sum of at most five entries, written or drawn, and holds it exactly. -/
theorem ctxResultRange : Obligations.CtxResultRange := by
  intro s s' t hw ht h
  rw [reg_result_of_execCtx ht h, toInt_wrap32_contextValue hw]
  exact contextValue_range hw t

/-! ### What a CTX result depends on (41_context.md R106, R107) -/

/-- Under the shortcut the entries of arrays 3 and 4 that CTX looks up add nothing: only the first three count (R101). -/
theorem writtenSum_iff_of_skip {s : State} {t : Nat} {r : Int} (hs : skip s t = some true) :
    WrittenSum s t r ↔ ∃ q0 q1 q2, lookup s t 0 = some q0 ∧ lookup s t 1 = some q1 ∧ lookup s t 2 = some q2 ∧
      r = q0 + q1 + q2 := by
  simp [WrittenSum, hs]

/-- Settles O23: under the shortcut a CTX reads arrays 0 to 2 alone, in which the two tables agree. -/
theorem shortcutTablesAreInterchangeable : Obligations.ShortcutTablesAreInterchangeable := by
  intro s t u ht hu hq hst hsu
  have hl : ∀ a, a < 3 → lookup s t a = lookup s u a := fun a ha => hq a _ ha (maskIndex_lt _ _)
  have hsum : ∀ r, WrittenSum s t r ↔ WrittenSum s u r := fun r => by
    rw [writtenSum_iff_of_skip hst, writtenSum_iff_of_skip hsu, hl 0 (by decide), hl 1 (by decide), hl 2 (by decide)]
  refine ⟨fun v => by simp only [execCtx_completes_iff ht, execCtx_completes_iff hu, hsum], fun hwritten => ?_⟩
  have hsome : ∀ a, a < 3 → ∃ q, lookup s t a = some q := fun a ha =>
    Option.isSome_iff_exists.1 (hwritten a _ ha (maskIndex_lt _ _))
  obtain ⟨q0, h0⟩ := hsome 0 (by decide)
  obtain ⟨q1, h1⟩ := hsome 1 (by decide)
  obtain ⟨q2, h2⟩ := hsome 2 (by decide)
  have hr : WrittenSum s t (q0 + q1 + q2) := (writtenSum_iff_of_skip hst).2 ⟨q0, q1, q2, h0, h1, h2, rfl⟩
  exact ⟨_, hr.execCtx ht, ((hsum _).1 hr).execCtx hu⟩

/-- The indices CTX looks its arrays up at are computed from the six samples alone (R102). -/
theorem lookupIndex_congr {s u : State} (hc : s.config = u.config)
    (hr : ∀ r ∈ [Reg.S_LL, .S_L, .S_LT, .S_T, .S_RT, .S_TT], s.reg r = u.reg r) (a : Nat) :
    lookupIndex s a = lookupIndex u a := by
  have hs : ∀ r ∈ [Reg.S_LL, .S_L, .S_LT, .S_T, .S_RT, .S_TT], sample s r = sample u r := fun r hmem =>
    sample_congr hc (hr r hmem)
  have hd : difference s a = difference u a := by
    unfold difference
    split <;> simp [hs]
  rw [lookupIndex, lookupIndex, hc, hd]

/-- SKIP(t) is computed from the two probe entries alone (R101). -/
theorem skip_congr {s u : State} {t : Nat} (h3 : probe s t 3 = probe u t 3) (h4 : probe s t 4 = probe u t 4) :
    skip s t = skip u t := by
  rw [skip, skip, h3, h4]

/-- Settles O24: the sum is one of lookups, and SKIP of probes, that are equal in the two states. -/
theorem ctxDependsOnlyOnWhatItReads : Obligations.CtxDependsOnlyOnWhatItReads := by
  intro s u t v hc ht hr hfirst hprobe hsecond h
  have lookup_eq {a : Nat} (ha : qEntry s t a (lookupIndex s a) = qEntry u t a (lookupIndex s a)) :
      lookup s t a = lookup u t a := by
    rw [lookup, ha, lookupIndex_congr hc hr, lookup]
  have probe_eq {a : Nat} (ha : a = 3 ∨ a = 4) : probe s t a = probe u t a := by
    rw [probe, hprobe a ha, hc, probe]
  have hskip : skip s t = skip u t := skip_congr (probe_eq (.inl rfl)) (probe_eq (.inr rfl))
  obtain ⟨r, ⟨q0, q1, q2, h0, h1, h2, hsum⟩, rfl⟩ := (execCtx_completes_iff ht).1 h
  rw [lookup_eq (hfirst 0 (by decide))] at h0
  rw [lookup_eq (hfirst 1 (by decide))] at h1
  rw [lookup_eq (hfirst 2 (by decide))] at h2
  refine WrittenSum.execCtx ⟨q0, q1, q2, h0, h1, h2, ?_⟩ (hc ▸ ht)
  rcases hsum with ⟨hs, rfl⟩ | ⟨hs, q3, q4, h3, h4, rfl⟩
  · exact .inl ⟨hskip.symm.trans hs, rfl⟩
  · rw [lookup_eq (hsecond hs 3 (.inl rfl))] at h3
    rw [lookup_eq (hsecond hs 4 (.inr rfl))] at h4
    exact .inr ⟨hskip.symm.trans hs, q3, q4, h3, h4, rfl⟩

/-! ### Well-formed tables (41_context.md R105) -/

/-- On an installed table each of the five lookups is some entry, for every neighbourhood (R103). -/
theorem TableInstalled.exists_lookup {s : State} {t a : Nat} (h : TableInstalled s t) (ha : a < Config.numArrays) :
    ∃ q, lookup s t a = some q :=
  Option.ne_none_iff_exists'.1 (h.lookup_ne_none ha)

/-- If the shortcut of a table is sound, the two second-order lookups it leaves out are 0 (R105). -/
theorem ShortcutSound.lookup_eq_zero {s : State} {t : Nat} {q3 q4 : Int} (h : ShortcutSound s t)
    (hs : skip s t = some true) (h3 : lookup s t 3 = some q3) (h4 : lookup s t 4 = some q4) : q3 = 0 ∧ q4 = 0 := by
  obtain ⟨h3', -⟩ := h hs (lookupIndex s 3) (maskIndex_lt _ _)
  obtain ⟨-, h4'⟩ := h hs (lookupIndex s 4) (maskIndex_lt _ _)
  exact ⟨Option.some.inj (h3.symm.trans h3'), Option.some.inj (h4.symm.trans h4')⟩

/-- Settles O25: where CTX skips, soundness makes the two lookups it leaves out 0. -/
theorem soundShortcutGivesTheFullSum : Obligations.SoundShortcutGivesTheFullSum := by
  intro s t hw ht hi hsound
  obtain ⟨q3, h3⟩ := hi.exists_lookup (a := 3) (by decide)
  obtain ⟨q4, h4⟩ := hi.exists_lookup (a := 4) (by decide)
  obtain ⟨q0, q1, q2, h0, h1, h2, hsum⟩ := writtenSum_contextValue (hi.readsUnwritten_eq_false hw)
  refine ⟨q0, q1, q2, q3, q4, h0, h1, h2, h3, h4, WrittenSum.execCtx ⟨q0, q1, q2, h0, h1, h2, ?_⟩ ht⟩
  rcases hsum with ⟨hs, -⟩ | ⟨hs, -⟩
  · obtain ⟨rfl, rfl⟩ := hsound.lookup_eq_zero hs h3 h4
    exact .inl ⟨hs, by omega⟩
  · exact .inr ⟨hs, q3, q4, h3, h4, rfl⟩

/-- On an installed table whose contexts are in range, the sum of the entries a CTX reads is in [0, SC_CTXCNT) (R105). -/
theorem WrittenSum.mem_range {s : State} {t : Nat} {r : Int} (h : WrittenSum s t r) (hi : TableInstalled s t)
    (hrange : ContextsInRange s t) : 0 ≤ r ∧ r < (s.reg .SC_CTXCNT).toNat := by
  obtain ⟨q3, h3⟩ := hi.exists_lookup (a := 3) (by decide)
  obtain ⟨q4, h4⟩ := hi.exists_lookup (a := 4) (by decide)
  obtain ⟨q0, q1, q2, h0, h1, h2, hsum⟩ := h
  have hr := hrange _ _ _ _ _ q0 q1 q2 q3 q4 (maskIndex_lt _ _) (maskIndex_lt _ _) (maskIndex_lt _ _)
    (maskIndex_lt _ _) (maskIndex_lt _ _) h0 h1 h2 h3 h4
  rcases hsum with ⟨hs, rfl⟩ | ⟨hs, q3', q4', h3', h4', rfl⟩
  · simpa [hs] using hr
  · cases h3.symm.trans h3'
    cases h4.symm.trans h4'
    simpa [hs, add_assoc] using hr

/-- Settles O26: CTX writes the sum of the entries it reads, which is in range, so the word is the number. -/
theorem wellFormedTableKeepsContextsInRange : Obligations.WellFormedTableKeepsContextsInRange := by
  rintro s t hw ht hi ⟨-, hrange⟩
  have hu := hi.readsUnwritten_eq_false hw
  obtain ⟨hpos, hlt⟩ := (writtenSum_contextValue hu).mem_range hi hrange
  have hv := toInt_wrap32_contextValue hw t
  refine ⟨_, execCtx_of_written ht hu, hpos.trans_eq hv.symm, ?_⟩
  have hnat := BitVec.toInt_eq_toNat_cond (wrap32 (contextValue s t))
  omega

/-! ### The two sums of a CTX (41_context.md R100, R101) -/

/-- Settles O17: with both probe entries 0 the table skips, and the sum is that of the first three lookups. -/
theorem ctxShortcutWritesTheBase : Obligations.CtxShortcutWritesTheBase := by
  intro s t q0 q1 q2 ht h0 h1 h2 h3 h4
  have hs : skip s t = some true := (skip_iff_of_probes h3 h4).1.2 ⟨rfl, rfl⟩
  exact WrittenSum.execCtx ⟨q0, q1, q2, h0, h1, h2, .inl ⟨hs, rfl⟩⟩ ht

/-- Settles O18: with a probe entry not 0 the table does not skip, and the sum is that of all five lookups. -/
theorem ctxFullSumAddsSecondOrder : Obligations.CtxFullSumAddsSecondOrder := by
  intro s t q0 q1 q2 q3 q4 p3 p4 ht h0 h1 h2 h3 h4 hp3 hp4 hne
  have hs : skip s t = some false := (skip_iff_of_probes hp3 hp4).2.2 hne
  exact WrittenSum.execCtx ⟨q0, q1, q2, h0, h1, h2, .inr ⟨hs, q3, q4, h3, h4, rfl⟩⟩ ht

/-- Settles O19: of the three things CTX can do, only the fault is of a table that does not exist. -/
theorem ctxBeyondTheTablesFaults : Obligations.CtxBeyondTheTablesFaults := by
  intro s t hn
  rcases execCtx_cases t s with ⟨-, he⟩ | ⟨ht, -⟩ | ⟨ht, -⟩
  · exact he
  · exact absurd ht hn.not_gt
  · exact absurd ht hn.not_gt

end Sys2Proof.Machine

namespace Sys2Proof.Machine

/-! ### The faults of SCOORD (42_slice_geometry.md R122) -/

/-- Settles O30: of the five things SCOORD can do, the three faults have the conditions of R122. -/
theorem scoordPreconditionFaults : Obligations.ScoordPreconditionFaults := by
  intro s i
  rcases execScoord_cases i s with
    ⟨hw, e⟩ | ⟨hw, hn, e⟩ | ⟨hw, hn, -, e⟩ | ⟨hw, hn, hi, -, -⟩ | ⟨hw, hn, hi, -, -⟩
  · exact ⟨fun _ => e, fun h => absurd hw h, fun h => absurd hw h⟩
  · exact ⟨fun h => absurd h hw.ne', fun _ _ => e, fun _ h => absurd hn h⟩
  · exact ⟨fun h => absurd h hw.ne', fun _ h => absurd h hn.ne', fun _ _ _ => e⟩
  all_goals exact ⟨fun h => absurd h hw.ne', fun _ h => absurd h hn.ne', fun _ _ h => absurd h hi.not_gt⟩

/-! ### The laws of a row of slice boundaries (42_slice_geometry.md R124, R126, R128) -/

/-- `f` cuts the columns `[0, w)` into `n` consecutive slices: what R124 and R126 have in common. -/
structure SliceBoundaries (w n : Nat) (f : Nat → Nat) : Prop where
  zero : f 0 = 0
  top : f n = w
  mono : ∀ i j, i ≤ j → j ≤ n → f i ≤ f j

/-- No boundary lies beyond the plane. -/
theorem SliceBoundaries.le_width {w n i : Nat} {f : Nat → Nat} (h : SliceBoundaries w n f) (hi : i ≤ n) : f i ≤ w :=
  h.top ▸ h.mono i n hi le_rfl

/-- A sequence that goes from at most `x` to above `x` has a step at which it passes `x`. -/
theorem exists_step_past {f : Nat → Nat} {x n : Nat} (h0 : f 0 ≤ x) (hn : x < f n) :
    ∃ j, j < n ∧ f j ≤ x ∧ x < f (j + 1) := by
  induction n with
  | zero => exact absurd hn h0.not_gt
  | succ n ih =>
    by_cases hx : x < f n
    · obtain ⟨j, hj, hjx⟩ := ih hx
      exact ⟨j, hj.trans n.lt_succ_self, hjx⟩
    · exact ⟨n, n.lt_succ_self, not_lt.1 hx, hn⟩

/-- Every column belongs to exactly one slice: two slices with `j < k` are apart, as `f (j + 1) ≤ f k` (R128). -/
theorem SliceBoundaries.existsUnique_slice {w n x : Nat} {f : Nat → Nat} (h : SliceBoundaries w n f) (hx : x < w) :
    ∃! j, j < n ∧ f j ≤ x ∧ x < f (j + 1) := by
  have not_before {j k : Nat} (hjk : j < k) (hk : k < n) (hj : x < f (j + 1)) : x < f k :=
    hj.trans_le (h.mono _ _ hjk hk.le)
  obtain ⟨j, hjn, hjx, hxj⟩ := exists_step_past (h.zero.trans_le x.zero_le) (hx.trans_eq h.top.symm)
  refine ⟨j, ⟨hjn, hjx, hxj⟩, ?_⟩
  rintro k ⟨hkn, hkx, hxk⟩
  rcases lt_trichotomy k j with hlt | heq | hgt
  · exact absurd (not_before hlt hjn hxk) hjx.not_gt
  · exact heq
  · exact absurd (not_before hgt hkn hxj) hkx.not_gt

/-! ### The boundaries of the current algorithm (42_slice_geometry.md R121, R124, R125) -/

/-- The raw boundary does not decrease in i (R124). -/
theorem rawBoundary_mono {w n cs i j : Nat} (h : i ≤ j) : rawBoundary w n cs i ≤ rawBoundary w n cs j := by
  rw [rawBoundary_eq, rawBoundary_eq]
  exact Nat.mul_le_mul_right _ (halfRound_mono h)

/-- The first raw boundary is 0: half a slice is rounded down (R124). -/
theorem rawBoundary_zero (w cs : Nat) {n : Nat} (hn : 0 < n) : rawBoundary w n cs 0 = 0 := by
  have hhalf : n / (2 * n) = 0 := Nat.div_eq_of_lt (by omega)
  simp [rawBoundary_eq, hhalf]

/-- The last raw boundary is `awidth` (R124). -/
theorem rawBoundary_top (w cs : Nat) {n : Nat} (hn : 0 < n) : rawBoundary w n cs n = alignedWidth w cs := by
  rw [rawBoundary_eq, halfRound_top hn, alignedWidth, mul_comm]

theorem dvd_rawBoundary (w n cs i : Nat) : 2 ^ cs ∣ rawBoundary w n cs i :=
  Nat.dvd_mul_left _ _

theorem le_alignedWidth (w cs : Nat) : w ≤ alignedWidth w cs := by
  rcases w.eq_zero_or_pos with rfl | hw
  · exact Nat.zero_le _
  · exact (roundUp_bounds (by positivity) hw).1

/-- Among the multiples of `mpw`, what is less than `awidth` is less than `width` (R121). -/
theorem lt_of_dvd_of_lt_alignedWidth {w cs b : Nat} (hw : 0 < w) (hb : 2 ^ cs ∣ b) (h : b < alignedWidth w cs) :
    b < w := by
  obtain ⟨-, hlt, -⟩ := roundUp_bounds (m := 2 ^ cs) (by positivity) hw
  have hstep : b + 2 ^ cs ≤ alignedWidth w cs :=
    Nat.add_le_of_le_sub' h.le (Nat.le_of_dvd (Nat.sub_pos_of_lt h) (Nat.dvd_sub (Nat.dvd_mul_right _ _) hb))
  rw [alignedWidth] at hstep
  omega

/-- The clamp of R121 cuts the raw boundary off at width: raw boundaries are multiples of `mpw` up to `awidth`. -/
theorem currentBoundary_eq_min {w n i : Nat} (cs : Nat) (hw : 0 < w) (hn : 0 < n) (hi : i ≤ n) :
    currentBoundary w n cs i = min w (rawBoundary w n cs i) := by
  have hle : rawBoundary w n cs i ≤ alignedWidth w cs := (rawBoundary_mono hi).trans_eq (rawBoundary_top w cs hn)
  rw [currentBoundary]
  split
  case isTrue h => rw [h, min_eq_left (le_alignedWidth w cs)]
  case isFalse h =>
    rw [min_eq_right (lt_of_dvd_of_lt_alignedWidth hw (dvd_rawBoundary w n cs i) (lt_of_le_of_ne hle h)).le]

/-- R124's laws but the alignment. -/
theorem sliceBoundaries_current {w n : Nat} (cs : Nat) (hw : 0 < w) (hn : 0 < n) :
    SliceBoundaries w n (currentBoundary w n cs) where
  zero := by rw [currentBoundary_eq_min cs hw hn n.zero_le, rawBoundary_zero w cs hn, Nat.min_zero]
  top := by rw [currentBoundary_eq_min cs hw hn le_rfl, rawBoundary_top w cs hn, min_eq_left (le_alignedWidth w cs)]
  mono i j hij hj := by
    rw [currentBoundary_eq_min cs hw hn (hij.trans hj), currentBoundary_eq_min cs hw hn hj]
    exact min_le_min_left w (rawBoundary_mono hij)

/-- A boundary is a multiple of `mpw` or the width, by the two cases of the clamp (R124). -/
theorem currentBoundary_aligned (w n cs i : Nat) :
    2 ^ cs ∣ currentBoundary w n cs i ∨ currentBoundary w n cs i = w := by
  rw [currentBoundary]
  split
  · exact .inr rfl
  · exact .inl (dvd_rawBoundary w n cs i)

/-- With `awidth/mpw` above N/2 no raw boundary but the last is `awidth` (R125): 2ki + N < 2k(i + 1) ≤ 2kN. -/
theorem rawBoundary_ne_alignedWidth {w n cs i : Nat} (hi : i < n) (hk : n < 2 * ((w + 2 ^ cs - 1) / 2 ^ cs)) :
    rawBoundary w n cs i ≠ alignedWidth w cs := by
  rw [rawBoundary_eq, alignedWidth]
  set k := (w + 2 ^ cs - 1) / 2 ^ cs
  have hlt : (2 * k * i + n) / (2 * n) < k := Nat.div_lt_of_lt_mul <| calc
    2 * k * i + n < 2 * k * i + 2 * k := Nat.add_lt_add_left hk _
    _ = 2 * k * (i + 1) := rfl
    _ ≤ 2 * k * n := Nat.mul_le_mul_left _ hi
    _ = 2 * n * k := by ring
  rw [mul_comm (2 ^ cs)]
  exact (Nat.mul_lt_mul_of_pos_right hlt (by positivity)).ne

/-- R125: in either of its two cases an interior boundary is a multiple of `mpw`. -/
theorem dvd_currentBoundary {w n cs i : Nat} (hi : i < n)
    (h : 2 ^ cs ∣ w ∨ n < 2 * ((w + 2 ^ cs - 1) / 2 ^ cs)) : 2 ^ cs ∣ currentBoundary w n cs i := by
  rcases h with hdvd | hk
  · exact (currentBoundary_aligned w n cs i).elim id fun heq => hdvd.trans heq.symm.dvd
  · rw [currentBoundary, if_neg (rawBoundary_ne_alignedWidth hi hk)]
    exact dvd_rawBoundary w n cs i

/-! ### The boundaries of the legacy algorithm (42_slice_geometry.md R126) -/

/-- R126's laws. -/
theorem sliceBoundaries_legacy (w : Nat) {n : Nat} (hn : 0 < n) : SliceBoundaries w n (legacyBoundary w n) where
  zero := by rw [legacyBoundary, Nat.mul_zero, Nat.zero_div]
  top := Nat.mul_div_cancel w hn
  mono _ _ hij _ := legacyBoundary_mono hij

/-! ### The boundaries SCOORD writes (42_slice_geometry.md R120, R129) -/

/-- The boundary of the algorithm CFG.GEOM_LEGACY selects (R129), which SCOORD writes by `execScoord_completes`. -/
def selectedBoundary (s : State) (i : Nat) : Nat :=
  if geomLegacy s then legacyBoundary (width s) (numHSlices s) i
  else currentBoundary (width s) (numHSlices s) (chromaShift s) i

theorem sliceBoundaries_selected {s : State} (hw : 0 < width s) (hn : 0 < numHSlices s) :
    SliceBoundaries (width s) (numHSlices s) (selectedBoundary s) := by
  unfold selectedBoundary
  split
  · exact sliceBoundaries_legacy _ hn
  · exact sliceBoundaries_current _ hw hn

/-- RESULT's 32 bits hold every boundary. -/
theorem selectedBoundary_lt {s : State} {i : Nat} (hw : 0 < width s) (hn : 0 < numHSlices s)
    (hi : i ≤ numHSlices s) : selectedBoundary s i < 2 ^ 32 :=
  ((sliceBoundaries_selected hw hn).le_width hi).trans_lt (width_lt s)

/-- With GEOM_LEGACY = 0 the boundary is a multiple of `mpw` or the width (R124). -/
theorem selectedBoundary_aligned {s : State} (hl : geomLegacy s = false) (i : Nat) :
    2 ^ chromaShift s ∣ selectedBoundary s i ∨ selectedBoundary s i = width s := by
  rw [selectedBoundary, if_neg (by simp [hl])]
  exact currentBoundary_aligned _ _ _ _

/-- Settles O31: the boundaries of the selected algorithm are slice boundaries, and the current one's are aligned or the
width. -/
theorem currentBoundaryLaws : Obligations.CurrentBoundaryLaws := by
  intro s hl hw hn
  have hb := sliceBoundaries_selected hw hn
  exact ⟨selectedBoundary s, fun i hi => execScoord_completes hw hn hi, hb.zero, hb.top, hb.mono,
    fun i hi => ⟨hb.le_width hi, selectedBoundary_lt hw hn hi, selectedBoundary_aligned hl i⟩⟩

/-- Settles O32: the boundaries of the selected algorithm are slice boundaries. -/
theorem legacyBoundaryLaws : Obligations.LegacyBoundaryLaws := by
  intro s _ hw hn
  have hb := sliceBoundaries_selected hw hn
  exact ⟨selectedBoundary s, fun i hi => execScoord_completes hw hn hi, hb.zero, hb.top, hb.mono,
    fun i hi => ⟨hb.le_width hi, selectedBoundary_lt hw hn hi⟩⟩

/-- Settles O33: slice boundaries tile the plane, whichever algorithm gives them. -/
theorem slicesPartitionThePlane : Obligations.SlicesPartitionThePlane := by
  intro s hw hn
  have hb := sliceBoundaries_selected hw hn
  exact ⟨selectedBoundary s, fun i hi => ⟨selectedBoundary_lt hw hn hi, execScoord_completes hw hn hi⟩, hb.zero,
    hb.top, fun x hx => hb.existsUnique_slice hx⟩

/-- Settles O34: the two cases of R125, and the current algorithm's boundary at width 3, cs 1, N 8, i 6 (TV-G4). -/
theorem interiorBoundariesAreAligned : Obligations.InteriorBoundariesAreAligned := by
  refine ⟨fun s i hl hw hi halign => ?_, fun s hl hw hn hc => ?_⟩
  · have hn : 0 < numHSlices s := i.zero_le.trans_lt hi
    refine ⟨selectedBoundary s i, execScoord_completes hw hn hi.le, selectedBoundary_lt hw hn hi.le, ?_⟩
    rw [selectedBoundary, if_neg (by simp [hl])]
    exact dvd_currentBoundary hi halign
  · rw [execScoord_completes (by omega) (by omega) (by omega), if_neg (by simp [hl]), hw, hn, hc]
    rfl

/-! ### The 50-bit datapath (42_slice_geometry.md R127) -/

/-- Division of words is division of the numbers they hold. -/
theorem ofNat_div_ofNat {v a b : Nat} (ha : a < 2 ^ v) (hb : b < 2 ^ v) :
    BitVec.ofNat v a / BitVec.ofNat v b = BitVec.ofNat v (a / b) := by
  apply BitVec.eq_of_toNat_eq
  simp [Nat.mod_eq_of_lt, ha, hb, (Nat.div_le_self a b).trans_lt ha]

/-- Two words of in-range numbers are equal exactly when the numbers are. -/
theorem ofNat_inj_of_lt {v a b : Nat} (ha : a < 2 ^ v) (hb : b < 2 ^ v) :
    BitVec.ofNat v a = BitVec.ofNat v b ↔ a = b := by
  rw [← BitVec.toNat_inj, BitVec.toNat_ofNat, BitVec.toNat_ofNat, Nat.mod_eq_of_lt ha, Nat.mod_eq_of_lt hb]

/-- `mpw` on the datapath (R121). -/
theorem one_shiftLeft_ofNat {cs : Nat} (hcs : cs < 8) : 1#50 <<< BitVec.ofNat 50 cs = BitVec.ofNat 50 (2 ^ cs) := by
  rw [BitVec.shiftLeft_eq', BitVec.toNat_ofNat, Nat.mod_eq_of_lt (by omega : cs < 2 ^ 50), ← BitVec.twoPow_eq]
  exact BitVec.eq_of_toNat_eq (by rw [BitVec.toNat_twoPow, BitVec.toNat_ofNat])

/-- `mpw` is at most 128 (R127). -/
theorem two_pow_le_of_lt_eight {cs : Nat} (hcs : cs < 8) : 2 ^ cs ≤ 128 :=
  Nat.pow_le_pow_right (n := 2) (by decide) (Nat.le_of_lt_succ hcs)

/-- `awidth` exceeds the width by less than `mpw` (R121). -/
theorem alignedWidth_lt {w cs : Nat} (hw : w < 2 ^ 32) (hcs : cs < 8) : alignedWidth w cs < 2 ^ 32 + 127 := by
  have := two_pow_le_of_lt_eight hcs
  have : alignedWidth w cs ≤ w + 2 ^ cs - 1 := Nat.mul_div_le _ _
  omega

/-- The raw boundary's numerator fits 50 unsigned bits (R127). -/
theorem rawBoundary_numerator_lt {w n cs i : Nat} (hw : w < 2 ^ 32) (hn : n < 2 ^ 16) (hcs : cs < 8) (hi : i ≤ n) :
    2 * alignedWidth w cs * i + n * 2 ^ cs < 2 ^ 50 := by
  have ha := alignedWidth_lt hw hcs
  have hai : 2 * alignedWidth w cs * i ≤ 2 * (2 ^ 32 + 127) * 65535 := Nat.mul_le_mul (by omega) (by omega)
  have hnm : n * 2 ^ cs ≤ 65535 * 128 := Nat.mul_le_mul (by omega) (two_pow_le_of_lt_eight hcs)
  omega

/-- The legacy algorithm's product fits 48 unsigned bits (R127). -/
theorem legacyBoundary_numerator_lt {w n i : Nat} (hw : w < 2 ^ 32) (hn : n < 2 ^ 16) (hi : i ≤ n) :
    w * i < 2 ^ 48 :=
  calc
    w * i < 2 ^ 32 * 2 ^ 16 := Nat.mul_lt_mul'' hw (hi.trans_lt hn)
    _ = 2 ^ 48 := by decide

/-- The raw boundary does not exceed its numerator, as `mpw` divides the divisor. -/
theorem rawBoundary_le_numerator (w n cs i : Nat) :
    rawBoundary w n cs i ≤ 2 * alignedWidth w cs * i + n * 2 ^ cs := by
  rw [rawBoundary]
  rcases n.eq_zero_or_pos with rfl | hn
  · simp
  · exact (Nat.mul_le_mul_left _ (Nat.le_mul_of_pos_left _ (by omega))).trans (Nat.div_mul_le_self _ _)

/-- The datapath's `awidth` is exact (R127). -/
theorem alignedWidth50_eq {w cs : Nat} (hw : w < 2 ^ 32) (hcs : cs < 8) :
    BitVec.ofNat 50 (2 ^ cs) * ((BitVec.ofNat 50 w + BitVec.ofNat 50 (2 ^ cs) - 1#50) / BitVec.ofNat 50 (2 ^ cs)) =
      BitVec.ofNat 50 (alignedWidth w cs) := by
  have hm := two_pow_le_of_lt_eight hcs
  have hpos : 0 < 2 ^ cs := by positivity
  have hsub : BitVec.ofNat 50 w + BitVec.ofNat 50 (2 ^ cs) - 1#50 = BitVec.ofNat 50 (w + 2 ^ cs - 1) := by
    rw [← BitVec.ofNat_add, BitVec.ofNat_sub_ofNat_of_le _ _ (by omega) (by omega)]
  rw [hsub, ofNat_div_ofNat (by omega) (by omega), ← BitVec.ofNat_mul, alignedWidth]

/-- The datapath's raw boundary is exact (R127). -/
theorem rawBoundary50_eq {w n cs i : Nat} (hw : w < 2 ^ 32) (hn : n < 2 ^ 16) (hcs : cs < 8) (hi : i ≤ n) :
    (2#50 * BitVec.ofNat 50 (alignedWidth w cs) * BitVec.ofNat 50 i + BitVec.ofNat 50 n * BitVec.ofNat 50 (2 ^ cs)) /
      (2#50 * BitVec.ofNat 50 n * BitVec.ofNat 50 (2 ^ cs)) * BitVec.ofNat 50 (2 ^ cs) =
    BitVec.ofNat 50 (rawBoundary w n cs i) := by
  have hden : 2 * n * 2 ^ cs < 2 ^ 50 :=
    (Nat.mul_le_mul (show 2 * n ≤ 2 * 65535 by omega) (two_pow_le_of_lt_eight hcs)).trans_lt (by decide)
  simp only [← BitVec.ofNat_mul, ← BitVec.ofNat_add]
  rw [ofNat_div_ofNat (rawBoundary_numerator_lt hw hn hcs hi) hden, ← BitVec.ofNat_mul, rawBoundary]

/-- The current algorithm on 50-bit words is the exact one: the clamp's test compares two exact words (R127). -/
theorem currentBoundary50_eq {w n cs i : Nat} (hw : w < 2 ^ 32) (hn : n < 2 ^ 16) (hcs : cs < 8) (hi : i ≤ n) :
    currentBoundary50 (BitVec.ofNat 50 w) (BitVec.ofNat 50 n) (BitVec.ofNat 50 cs) (BitVec.ofNat 50 i) =
      BitVec.ofNat 50 (currentBoundary w n cs i) := by
  have hraw := (rawBoundary_le_numerator w n cs i).trans_lt (rawBoundary_numerator_lt hw hn hcs hi)
  have haw : alignedWidth w cs < 2 ^ 50 := (alignedWidth_lt hw hcs).trans (by decide)
  simp only [currentBoundary50, currentBoundary, one_shiftLeft_ofNat hcs, alignedWidth50_eq hw hcs,
    rawBoundary50_eq hw hn hcs hi, ofNat_inj_of_lt hraw haw, apply_ite (BitVec.ofNat 50)]

/-- The current algorithm's boundary fits 50 unsigned bits (R127). -/
theorem currentBoundary_lt {w n cs i : Nat} (hw : w < 2 ^ 32) (hn : n < 2 ^ 16) (hcs : cs < 8) (hi : i ≤ n) :
    currentBoundary w n cs i < 2 ^ 50 := by
  rw [currentBoundary]
  split
  · exact hw.trans (by decide)
  · exact (rawBoundary_le_numerator w n cs i).trans_lt (rawBoundary_numerator_lt hw hn hcs hi)

/-- Settles O35: with no intermediate of 2^50 or more, the operations on words are those on numbers. -/
theorem fiftyBitDatapathIsExact : Obligations.FiftyBitDatapathIsExact := by
  intro w n cs i hw hn hcs hi
  have hprod : w * i < 2 ^ 48 := legacyBoundary_numerator_lt hw hn hi
  have hprod50 : w * i < 2 ^ 50 := hprod.trans (by decide)
  refine ⟨rawBoundary_numerator_lt hw hn hcs hi, hprod, ?_, ?_⟩
  · rw [currentBoundary50_eq hw hn hcs hi, BitVec.toNat_ofNat, Nat.mod_eq_of_lt (currentBoundary_lt hw hn hcs hi)]
  · rw [legacyBoundary50, ← BitVec.ofNat_mul, ofNat_div_ofNat hprod50 (hn.trans (by decide)), BitVec.toNat_ofNat,
      Nat.mod_eq_of_lt ((Nat.div_le_self _ _).trans_lt hprod50), legacyBoundary]

end Sys2Proof.Machine

namespace Sys2Proof.Machine

/-! ### The run-length ROM (43_run_length.md R140, R141) -/

/-- R140's closed form of RL: each value four times up to class 15, twice up to class 23, once from class 24 on. -/
def runLength (c : Nat) : Nat :=
  if c ≤ 15 then c / 4 else if c ≤ 23 then 4 + (c - 16) / 2 else c - 16

/-- The ROM tabulates the closed form (R140). -/
theorem runLengthRom_eq_map : runLengthRom = (List.range Config.rlEntries).map runLength := by decide

/-- The ROM's entry for a class it lists (R140). -/
theorem runLengthRom_getElem? {c : Nat} (hc : c < Config.rlEntries) : runLengthRom[c]? = some (runLength c) := by
  rw [runLengthRom_eq_map, List.getElem?_map, List.getElem?_range hc, Option.map_some]

/-- RLT of a class the ROM lists completes with its run length (R141). -/
theorem execRlt_completes {c : Nat} (s : State) (hc : c ≤ 40) :
    exec (.rlt c) s = .next (s.setReg .RESULT (BitVec.ofNat 32 (runLength c))) := by
  have hlt : c < Config.rlEntries := Nat.lt_succ_of_le hc
  rcases execRlt_cases c s with ⟨n, hn, -, e⟩ | ⟨hge, -⟩
  · rw [runLengthRom_getElem? hlt] at hn
    cases hn
    exact e
  · exact absurd hlt hge.not_gt

/-- Settles O36: RLT completes with the closed form, which takes its three branches on the three ranges. -/
theorem rltReadsTheRom : Obligations.RltReadsTheRom := by
  refine fun s c => ⟨fun hc => ?_, fun hlo hhi => ?_, fun hlo hhi => ?_⟩
  · rw [execRlt_completes s (by omega), runLength, if_pos hc]
  · rw [execRlt_completes s (by omega), runLength, if_neg (by omega), if_pos hhi]
  · rw [execRlt_completes s hhi, runLength, if_neg (by omega), if_neg (by omega)]

/-- Settles O37: a class above 40 is none of the ROM's, so RLT raises RL_CLASS_RANGE. -/
theorem rltBeyondTheRomFaults : Obligations.RltBeyondTheRomFaults := by
  intro s c hc
  rcases execRlt_cases c s with ⟨_, -, hlt, -⟩ | ⟨-, e⟩
  · exact absurd hlt (Nat.not_lt_of_le hc)
  · exact e

end Sys2Proof.Machine

namespace Sys2Proof.Machine

/-! ### NOP (44_control.md R150) -/

/-- The word 0 is NOP, under every parameter set (R76, R78). -/
theorem decode_zero (c : Config) : decode c 0 = .ok .nop :=
  decode_eq_ok_iff.2 ⟨rfl, rfl⟩

/-- Executing the word 0 changes nothing: faulted it is ignored (R164), otherwise it is NOP (R150). -/
theorem execute_zero (s : State) : execute 0 s = .next s := by
  cases hf : s.faulted with
  | true => exact execute_faulted hf 0
  | false => exact execute_decoded hf (decode_zero s.config)

/-- A word with NOP's opcode and one of its reserved bits set is no command (R71, R77). -/
theorem illegalWord_of_reserved_nop {c : Config} {w : Word} (hop : w.extractLsb' 0 4 = 0)
    (hres : w.extractLsb' 4 28 ≠ 0) : IllegalWord c w := by
  have hop0 : bits w 3 0 = 0 := by rw [bits_eq_toNat_extractLsb' w 0 3, hop]; rfl
  have hres0 : bits w 31 4 ≠ 0 := by
    rw [bits_eq_toNat_extractLsb' w 4 27]
    exact BitVec.toNat_ne_iff_ne.2 hres
  exact .inr (.inl ⟨hop0.trans_le zero_le_one, hres0⟩)

/-- Settles O13: a CMD write executes its word, and the words with opcode 0 are NOP and illegal ones. -/
theorem nopLeavesEverything : Obligations.NopLeavesEverything := by
  refine ⟨fun s => rfl, rfl, fun s rest hi => ?_, fun s w rest hop hres hf hi => ?_⟩
  · rw [step_write_cmd hi, execute_zero]
  · exact illegalWordsFaultAndChangeOnlyStatus.2 s w rest (illegalWord_of_reserved_nop hop hres) hf hi

end Sys2Proof.Machine

namespace Sys2Proof.Machine

/-! ### Faults along a run, and the model-only fault (60_exceptions.md R160 to R168) -/

/-- A step takes the oldest event off the pending ones, and leaves the others. -/
theorem step_inbox {s s' : State} (h : step s = .next s') : s'.inbox = s.inbox.tail := by
  cases hi : s.inbox with
  | nil => rw [← next_inj (step_idle hi) h, hi, List.tail_nil]
  | cons e rest => exact hostEvent_keeps_inbox ((step_event hi).symm.trans h)

/-- A faulted PXC with no reset pending goes on, with STATUS and RESULT unchanged and still no reset pending (R164). -/
theorem step_faulted {s : State} (hf : s.faulted = true) (hr : .reset ∉ s.inbox) :
    ∃ u, step s = .next u ∧ u.reg .STATUS = s.reg .STATUS ∧ u.reg .RESULT = s.reg .RESULT ∧ .reset ∉ u.inbox := by
  obtain ⟨u, hs⟩ := step_next s
  rcases onlyResetLeavesTheFaultedState s u hf hs with ⟨hstatus, hresult⟩ | ⟨rest, hi, -⟩
  · exact ⟨u, hs, hstatus, hresult, fun hu => hr (List.mem_of_mem_tail (step_inbox hs ▸ hu))⟩
  · exact absurd (hi ▸ List.mem_cons_self) hr

/-- Settles O41, by induction on the length of the run: equal STATUS keeps PXC faulted, so `step_faulted` applies again. -/
theorem faultStaysThroughARun : Obligations.FaultStaysThroughARun := by
  intro k
  induction k with
  | zero => exact fun s _ _ => ⟨s, rfl, rfl, rfl⟩
  | succ k ih =>
    intro s hf hr
    obtain ⟨u, hs, hstatus, hresult, hru⟩ := step_faulted hf hr
    have hfu : u.faulted = true := by rw [faulted_eq, hstatus, ← faulted_eq, hf]
    obtain ⟨s', hrun, hstatus', hresult'⟩ := ih u hfu hru
    exact ⟨s', (core_run_next k hs).trans hrun, hstatus'.trans hstatus, hresult'.trans hresult⟩

/-- Every command goes on (R151, R162). -/
theorem exec_next (i : Instr) (s : State) : ∃ s', exec i s = .next s' := by
  rcases exec_cases i s with h | ⟨_, h⟩ | ⟨_, h⟩ | ⟨_, _, -, -, -, h⟩ <;> exact ⟨_, h⟩

/-- Settles O56: a step performs an event or idles, and a command completes or raises a fault; each is a next state. -/
theorem everyStepGoesOn : Obligations.EveryStepGoesOn :=
  ⟨step_next, exec_next⟩

/-- An event but a reset keeps the model-only fault: a CTX that raises it again records the same one (R168). -/
theorem EventEffect.keeps_modelFault {e : HostEvent} {s s' : State} {f : Fault} (he : EventEffect e s s')
    (hm : s.modelFault = some f) (hne : e ≠ .reset) : s'.modelFault = some f := by
  rcases he with ⟨rfl, -⟩ | ⟨_, _, -, ⟨-, rfl⟩ | ⟨-, _, rfl | rfl⟩⟩ | ⟨_, _, _, -, hwrite⟩
  · exact absurd rfl hne
  · exact hm
  · exact hm
  · exact hm
  · rcases hwrite with rfl | ⟨_, rfl, -⟩ | ⟨_, rfl, -⟩ | ⟨_, _, -, -, -, -, -, -, rfl⟩ | ⟨_, -, rfl⟩ |
        ⟨_, _, _, -, -, rfl⟩
    · exact hm
    · exact hm
    · exact hm
    · cases f
      exact latch_modelFault _ .uninitTable
    · exact (setReg_modelFault _ _ _).trans hm
    · exact hm

/-- A reset leaves the faulted state (R165, R190). -/
@[simp] theorem faulted_applyReset (s : State) : (applyReset s).faulted = false := by
  rw [faulted_eq, reg_applyReset]
  rfl

/-- Settles O57: the oldest event is a reset, which clears the record and STATUS, or it keeps the record. -/
theorem onlyResetDiscardsTheModelFault : Obligations.OnlyResetDiscardsTheModelFault := by
  intro s s' f hm hs
  rcases step_cases hs with ⟨hi, rfl⟩ | ⟨e, rest, hi, he⟩
  · exact .inl ⟨hm, fun rest hreset => by cases hi.symm.trans hreset⟩
  · by_cases hr : e = .reset
    · subst hr
      cases next_inj (step_event hi) hs
      exact .inr ⟨rest, hi, applyReset_modelFault _, faulted_applyReset _⟩
    · refine .inl ⟨he.keeps_modelFault hm hr, fun rest' hreset => hr ?_⟩
      exact (List.cons.inj (hi.symm.trans hreset)).1

/-! ### The word of a fault (60_exceptions.md R161, R162) -/

/-- The word of a fault, as R162 writes it. -/
theorem statusWord_eq (c : FaultCause) : statusWord c = (BitVec.ofNat 32 c.code <<< 8) ||| 1 := by
  cases c <;> rfl

/-- The word of a fault has FAULT = 1 (R28). -/
theorem getLsbD_statusWord_zero (c : FaultCause) : (statusWord c).getLsbD 0 = true := by
  cases c <;> rfl

/-- The word of a fault has the cause's code in CAUSE (R28, R161). -/
theorem bits_statusWord_cause (c : FaultCause) : bits (statusWord c) 11 8 = c.code := by
  cases c <;> rfl

/-- Settles O39: raising a fault is one register write, of the word `statusWord` to STATUS. -/
theorem faultEntryWritesStatusOnly : Obligations.FaultEntryWritesStatusOnly := by
  intro c s
  exact ⟨s.setReg .STATUS (statusWord c), rfl, statusWord_eq c, getLsbD_statusWord_zero c, bits_statusWord_cause c,
    fun r hr => reg_setReg_ne s _ hr, fun a => congrArg (·.readByte a) (setReg_qtab s _ _), setReg_config s _ _,
    setReg_inbox s _ _, setReg_replies s _ _, setReg_draws s _ _, setReg_stream s _ _, setReg_modelFault s _ _⟩

end Sys2Proof.Machine

namespace Sys2Proof.Machine

/-! ### Reset (70_reset_and_hazards.md R190, R191) -/

/-- A step with a reset pending first performs it (R190). -/
theorem step_reset {s : State} {rest : List HostEvent} (h : s.inbox = .reset :: rest) :
    step s = .next (applyReset (s.setInbox rest)) :=
  step_event h

/-- No byte is held where nothing has been written (R37). -/
@[simp] theorem readByte_nil (x : Nat) : Memory.readByte [] x = none := rfl

/-- No entry holds a value where no byte has been written (R37). -/
theorem qEntry_of_qtab_nil {s : State} (h : s.qtab = []) (t a k : Nat) : qEntry s t a k = none := by
  simp only [qEntry, Memory.readEntry, h, readByte_nil, Option.map_none]

/-- Settles O52: the step is `applyReset`, whose registers are 0 and whose table storage is empty, as in `State.reset`. -/
theorem resetClearsRegistersAndTables : Obligations.ResetClearsRegistersAndTables := by
  refine ⟨fun s rest hi => ⟨_, step_reset hi, reg_applyReset _, faulted_applyReset _, readByte_nil, ?_⟩, ?_, ?_⟩
  · exact qEntry_of_qtab_nil (applyReset_qtab _)
  · exact reg_applyReset .reset
  · exact qEntry_of_qtab_nil rfl

/-- What a reset leaves depends only on the parameters and the record of the host (R191; logs 4, 8). -/
theorem applyReset_congr {s u : State} (hc : s.config = u.config) (hi : s.inbox = u.inbox)
    (hp : s.replies = u.replies) (hd : s.draws = u.draws) (ht : s.stream = u.stream) :
    applyReset s = applyReset u := by
  rw [applyReset, hc, hi, hp, hd, ht, applyReset]

/-- Settles O58: both steps go on to one state after reset, and a run from either goes on from there. -/
theorem resetForgetsTheStateBefore : Obligations.ResetForgetsTheStateBefore := by
  intro k s u rest hs hu hc hp hd ht
  have hsame : applyReset (s.setInbox rest) = applyReset (u.setInbox rest) := applyReset_congr hc rfl hp hd ht
  have hstep : step u = .next (applyReset (s.setInbox rest)) := hsame ▸ step_reset hu
  have hrun := core_run_next k (step_reset hs)
  exact ⟨(step_reset hs).trans hstep.symm, hrun.trans (core_run_next k hstep).symm, hrun⟩

end Sys2Proof.Machine
